-- ==== Sys2Proof/Word.lean ====
section
/-! DEFINITION. The word types of the block: an 8-bit byte (R30), the 80-bit command word (R45), the 64-bit operand and
scalar (R5, R49), the 32-bit checksum (R13). -/

namespace Sys2Proof

/-- A byte is 8 bits (R30). -/
abbrev Byte := BitVec 8

/-- `CMD_BITS` = 80: the command word (R5, R45). -/
abbrev CmdWord := BitVec 80

/-- `ARG_BITS` = 64: the operand field `arg`, and the response's `scalar` (R5, R49). -/
abbrev Word64 := BitVec 64

/-- `ADLER_BITS` = 32: the checksum register (R5, R13). -/
abbrev Word32 := BitVec 32

end Sys2Proof
end

