-- ==== Sys2Proof/Syntax.lean ====
section
/-! DEFINITION. The command set (R47): one constructor per row of spec/opcode_table.json, with its operands as R46 assembles them.
A field the spec treats as bits (the value of a push, the checksum) is a bit vector; a count or a length is a natural number,
whose range WellFormed.lean checks. The payload bytes are no operand: they travel beside the word (R41, R44). -/

namespace Sys2Proof

/-- The 11 commands of R47, in opcode order. -/
inductive Instr where
  /-- `BW_PUSH value, nbits` (R61). -/
  | bwPush (value : Word64) (nbits : Nat)
  /-- `BW_PUSH_REV value, nbits` (R62). -/
  | bwPushRev (value : Word64) (nbits : Nat)
  /-- `BW_ALIGNED` (R63). -/
  | bwAligned
  /-- `BW_CLEAR` (R64). -/
  | bwClear
  /-- `BW_EXTRACT` (R65). -/
  | bwExtract
  /-- `FE_ENCODE [data]`, `len` the payload length in bytes (R72). -/
  | feEncode (len : Nat)
  /-- `ZR_ENCODE n`, `n` the run length in bytes (R80). -/
  | zrEncode (n : Nat)
  /-- `AD_LOAD checksum` (R102). -/
  | adLoad (checksum : Word32)
  /-- `AD_COMBINE [data]`, `len` the payload length in bytes (R103). -/
  | adCombine (len : Nat)
  /-- `AD_ZERO_RUN n`, `n` the run length in bytes (R104). -/
  | adZeroRun (n : Nat)
  /-- `AD_READ` (R105). -/
  | adRead
  deriving DecidableEq, Repr

end Sys2Proof
end

