-- ==== Sys2Proof/WellFormed.lean ====
section
/-! DEFINITION. Which terms of Instr a command word can express: a bit count of 0 to 63 (R46, NBITS_BITS = 6) and a length or run
below 2^64 (R41, R46, ARG_BITS = 64). -/

namespace Sys2Proof

/-- `nbits` fits its 6-bit field (R5, R45). -/
def nbitsInRange (nbits : Nat) : Bool := nbits < 64

/-- A payload length or a run length fits the 64-bit `arg` (R5, R45). -/
def argInRange (n : Nat) : Bool := n < 2 ^ 64

/-- The check of one command's operands. -/
def Instr.wellFormed : Instr → Bool
  | .bwPush _ nbits => nbitsInRange nbits
  | .bwPushRev _ nbits => nbitsInRange nbits
  | .bwAligned => true
  | .bwClear => true
  | .bwExtract => true
  | .feEncode len => argInRange len
  | .zrEncode n => argInRange n
  | .adLoad _ => true
  | .adCombine len => argInRange len
  | .adZeroRun n => argInRange n
  | .adRead => true

/-- The command can be presented in a command word. -/
abbrev Instr.WellFormed (i : Instr) : Prop := i.wellFormed = true

end Sys2Proof
end

