-- ==== Sys2Proof/Decode.lean ====
section
/-! DEFINITION. The decoder of the 80-bit command word (R45 to R48), total, with a named reason for every word it refuses, and
after it the encoder, written from the same table. R45 makes the word a number whose transport is open, so both work on the
number and not on a byte order. -/

namespace Sys2Proof

/-- Why a word is not legal (R48). The block reports every one of them as `IllegalCommand` (R120). -/
inductive DecodeReject where
  /-- `op` is 0xB to 0xF. -/
  | reservedOpcode
  /-- `rsv` is not 0. -/
  | reservedField
  /-- `nbits` is not 0 in a command other than BW_PUSH and BW_PUSH_REV. -/
  | nbitsNotZero
  /-- a bit of `arg` that R46 marks must-be-zero is not 0. -/
  | argNotZero
  deriving DecidableEq, Repr

/-- `op`, bits 3:0 (R45). -/
def wordOp (w : CmdWord) : BitVec 4 := w.extractLsb' 0 4

/-- `nbits`, bits 9:4 (R45). -/
def wordNbits (w : CmdWord) : BitVec 6 := w.extractLsb' 4 6

/-- `rsv`, bits 15:10 (R45). -/
def wordRsv (w : CmdWord) : BitVec 6 := w.extractLsb' 10 6

/-- `arg`, bits 79:16 (R45). -/
def wordArg (w : CmdWord) : Word64 := w.extractLsb' 16 64

/-- A command with the whole `arg` as its operand: `nbits` must be 0 (R46). -/
def decodeArgOnly (w : CmdWord) (i : Instr) : Except DecodeReject Instr :=
  if wordNbits w ≠ 0 then .error .nbitsNotZero else .ok i

/-- A command with no operand: `nbits` and `arg` must be 0 (R46). -/
def decodeNoOperand (w : CmdWord) (i : Instr) : Except DecodeReject Instr :=
  if wordNbits w ≠ 0 then .error .nbitsNotZero
  else if wordArg w ≠ 0 then .error .argNotZero
  else .ok i

/-- AD_LOAD: `nbits` and `arg[63:32]` must be 0, the operand is `arg[31:0]` (R46, R102). -/
def decodeAdLoad (w : CmdWord) : Except DecodeReject Instr :=
  if wordNbits w ≠ 0 then .error .nbitsNotZero
  else if (wordArg w).extractLsb' 32 32 ≠ 0 then .error .argNotZero
  else .ok (.adLoad ((wordArg w).extractLsb' 0 32))

/-- The opcode map of R47 on a word whose `rsv` is 0. -/
def decodeOp (w : CmdWord) : Except DecodeReject Instr :=
  match (wordOp w).toNat with
  | 0x0 => .ok (.bwPush (wordArg w) (wordNbits w).toNat)
  | 0x1 => .ok (.bwPushRev (wordArg w) (wordNbits w).toNat)
  | 0x2 => decodeNoOperand w .bwAligned
  | 0x3 => decodeNoOperand w .bwClear
  | 0x4 => decodeNoOperand w .bwExtract
  | 0x5 => decodeArgOnly w (.feEncode (wordArg w).toNat)
  | 0x6 => decodeArgOnly w (.zrEncode (wordArg w).toNat)
  | 0x7 => decodeAdLoad w
  | 0x8 => decodeArgOnly w (.adCombine (wordArg w).toNat)
  | 0x9 => decodeArgOnly w (.adZeroRun (wordArg w).toNat)
  | 0xA => decodeNoOperand w .adRead
  | _ => .error .reservedOpcode

/-- The command a word stands for, or why it is illegal (R45 to R48). -/
def decode (w : CmdWord) : Except DecodeReject Instr :=
  if wordRsv w ≠ 0 then .error .reservedField else decodeOp w

/-- R48 as it is written: `op ≤ 0xA`, `rsv = 0`, and every field that R46 marks "must be 0" is 0. It is stated apart from
`decode`, which is shown to accept exactly these words. -/
def legalWord (w : CmdWord) : Bool :=
  let op := (wordOp w).toNat
  decide (op ≤ 0xA) && decide (wordRsv w = 0)
    && (decide (op ≤ 0x1) || decide (wordNbits w = 0))
    && (!(op == 0x2 || op == 0x3 || op == 0x4 || op == 0xA) || decide (wordArg w = 0))
    && (!(op == 0x7) || decide ((wordArg w).extractLsb' 32 32 = 0))

/-- The word with the given fields, `rsv` 0 (R45): `op | nbits << 4 | arg << 16`. -/
def buildWord (op : BitVec 4) (nbits : BitVec 6) (arg : Word64) : CmdWord :=
  arg ++ (0 : BitVec 6) ++ nbits ++ op

/-- The command word of a command (R45 to R47). -/
def encode : Instr → CmdWord
  | .bwPush value nbits => buildWord 0x0 (BitVec.ofNat 6 nbits) value
  | .bwPushRev value nbits => buildWord 0x1 (BitVec.ofNat 6 nbits) value
  | .bwAligned => buildWord 0x2 0 0
  | .bwClear => buildWord 0x3 0 0
  | .bwExtract => buildWord 0x4 0 0
  | .feEncode len => buildWord 0x5 0 (BitVec.ofNat 64 len)
  | .zrEncode n => buildWord 0x6 0 (BitVec.ofNat 64 n)
  | .adLoad checksum => buildWord 0x7 0 (checksum.setWidth 64)
  | .adCombine len => buildWord 0x8 0 (BitVec.ofNat 64 len)
  | .adZeroRun n => buildWord 0x9 0 (BitVec.ofNat 64 n)
  | .adRead => buildWord 0xA 0 0

/-- The command word read from the low `nbits` bits of `w`, numbered as spec/opcode_table.json numbers them: one 80-bit word, every
bit above `nbits` 0. A number that does not fit 80 bits is no command word. -/
def tableWord (nbits w : Nat) : Option CmdWord :=
  if w % 2 ^ nbits < 2 ^ 80 then some (BitVec.ofNat 80 (w % 2 ^ nbits)) else none

/-- What the decoder reads from an opcode-table word; none where it refuses. -/
def decodeTableWord (nbits w : Nat) : Option Instr :=
  match tableWord nbits w with
  | none => none
  | some cw =>
    match decode cw with
    | .ok i => some i
    | .error _ => none

end Sys2Proof
end

