-- ==== Sys2Proof/Config.lean ====
section
/-! DEFINITION. What an integration fixes and the spec leaves OPEN (R5): the capacity of the byte buffer. It is an argument of
the model, so it is carried in State (Machine/State.lean) and no statement fixes it. There is no free value in this model: the
spec leaves no result of any command undefined. -/

namespace Sys2Proof

/-- The parameters R5 marks OPEN that a rule of the block reads. `bwCap` is `BW_CAP`: `none` is unbounded, the default;
`some c` is a buffer of `c` bytes, which adds the `BwOverflow` fault (R42). -/
structure Params where
  bwCap : Option Nat
  deriving DecidableEq, Repr

/-- The default of R5: `BW_CAP` unbounded. -/
def Params.standard : Params where
  bwCap := none

end Sys2Proof
end

