-- ==== Sys2Proof/Machine/State.lean ====
section
/-! DEFINITION. The block's whole architectural state (R10 to R17, R22) as plain data, the channels between host and block at
transaction level (R44), the values that travel on them (R18, R49), and the state after reset (R22, R140). -/

namespace Sys2Proof.Machine

/-- The six faults of R120. This is the block's own fault, recorded in the fault register by a step that answers a next state. -/
inductive FaultCode where
  /-- 1: the word is not legal. -/
  | illegalCommand
  /-- 2: the payload's length differs from what the command announces. -/
  | payloadLength
  /-- 3: BW_EXTRACT with a partial byte pending. -/
  | extractUnaligned
  /-- 4: a byte would be appended to a full `bw.done`. -/
  | bwOverflow
  /-- 5: `rem < 258` before a subtraction in the alignment step of ZR_ENCODE. -/
  | zrUnderflow
  /-- 6: `LengthCode` outside 3..258, or `rem ≠ num_excess` in the postamble. -/
  | zrExcessRange
  deriving DecidableEq, Repr

/-- The bit writer's registers (R11). -/
structure BitWriter where
  /-- `bw.done`: the completed bytes, oldest first. -/
  done : List Byte
  /-- `bw.cur`: the partial byte, bits `cnt-1 .. 0` valid, bit 0 the oldest. -/
  cur : Byte
  /-- `bw.cnt`: how many bits of `bw.cur` are valid, 0..7. -/
  cnt : BitVec 3
  deriving DecidableEq, Repr

/-- A command at transaction level: the command word and the payload bytes that accompany it (R44). -/
structure Command where
  word : CmdWord
  data : List Byte
  deriving DecidableEq, Repr

/-- What the host does to the block (R149): it issues a command, or it applies `rst` (R140). -/
inductive HostAction where
  | command (c : Command)
  | reset
  deriving DecidableEq, Repr

/-- `rsp_variant` (R49). -/
inductive Variant where
  | none
  | scalar
  | plain
  | triple
  deriving DecidableEq, Repr

/-- One response (R49). -/
structure Response where
  status : BitVec 4
  variant : Variant
  scalar : Word64
  seg0 : List Byte
  seg1 : List Byte
  deriving DecidableEq, Repr

/-- The response value of the encoders (R18): a byte string, or a preamble, a count of zero bytes and a postamble. -/
inductive EncodedBlock where
  | plain (bytes : List Byte)
  | triple (preamble : List Byte) (zeroCount : Nat) (postamble : List Byte)
  deriving DecidableEq, Repr

/-- The whole state of the block and of its interface. -/
structure State where
  /-- The bit writer (R11, R12: there is one). -/
  bw : BitWriter
  /-- The checksum register (R13). -/
  adler : Word32
  /-- `fault.valid` (R15). -/
  faultValid : Bool
  /-- `fault.code` (R15). -/
  faultCode : BitVec 4
  /-- The parameter `BW_CAP` (R5); no command and no reset writes it. DESIGN CHOICE, log entry 4. -/
  params : Params
  /-- What the host offers on the command and payload channels and on `rst`, the next action first. DESIGN CHOICE, log entry 1. -/
  input : List HostAction
  /-- The responses given since reset, oldest first (R38, R49). DESIGN CHOICE, log entry 2. -/
  responses : List Response
  deriving DecidableEq, Repr

/-- Why a step stops. It has no constructor: no rule of the spec stops the block. Each condition of R120 is recorded in the fault
register by a step that answers a next state (R123), and a faulted block still answers every command (R124), so no step ends in
this outcome. Safe: nothing is left out by it (log entry 6). -/
inductive Fault where
  deriving DecidableEq, Repr

/-- Why an instruction has no meaning in the model. -/
inductive Refusal where
  /-- Raised by exec for an instruction that is not modelled yet. Safe. No arm raises it: every command has its meaning. -/
  | notModelled (mnemonic : String)
  deriving DecidableEq, Repr

/-- The empty writer of R22 and of `Clear()` (R64). -/
def BitWriter.empty : BitWriter where
  done := []
  cur := 0
  cnt := 0

/-- R22 for a block built with the parameters `p`: every register at its reset value, the interface idle. -/
def State.resetWith (p : Params) : State where
  bw := BitWriter.empty
  adler := 0x00000001
  faultValid := false
  faultCode := 0
  params := p
  input := []
  responses := []

/-- The machine right after reset (R22), `BW_CAP` at its default (R5). -/
def State.reset : State := State.resetWith Params.standard

end Sys2Proof.Machine
end

