-- ==== Sys2Proof/Machine/Constants.lean ====
section
/-! DEFINITION. The fixed parameters of R5 and the format tables of sections 7 to 9 of 30_encoding.md and section 2 of
42_zero_run_encoder.md, each written once. -/

namespace Sys2Proof.Machine

/-- `ADLER_MOD` (R5). -/
def adlerMod : Nat := 65521

/-- `UNIT`: the bytes one pair produces (R5). -/
def unit258 : Nat := 258

/-- `GROUP`: pairs per compressed zero byte (R5). -/
def group4 : Nat := 4

/-- `ZR_THRESHOLD`: the longest run on the small path (R5, R80). -/
def zrThreshold : Nat := 1032

/-- The code and the number of bits of the fixed-Huffman literal `x`: 8 bits `48 + x` up to 143, 9 bits `400 + (x - 144)` from 144
(R54, R70). -/
def fixedLiteralCode (x : Nat) : Nat × Nat :=
  if x ≤ 143 then (0b00110000 + x, 8) else (0b110010000 + (x - 144), 9)

/-- One row of the length table of R59: a literal/length symbol, its number of extra bits, and its range of match lengths. -/
structure LengthRow where
  symbol : Nat
  extra : Nat
  first : Nat
  last : Nat
  deriving DecidableEq, Repr

/-- The length table of R59. -/
def lengthTable : List LengthRow :=
  [⟨257, 0, 3, 3⟩, ⟨258, 0, 4, 4⟩, ⟨259, 0, 5, 5⟩, ⟨260, 0, 6, 6⟩, ⟨261, 0, 7, 7⟩, ⟨262, 0, 8, 8⟩, ⟨263, 0, 9, 9⟩, ⟨264, 0, 10, 10⟩]
    ++ [⟨265, 1, 11, 12⟩, ⟨266, 1, 13, 14⟩, ⟨267, 1, 15, 16⟩, ⟨268, 1, 17, 18⟩]
    ++ [⟨269, 2, 19, 22⟩, ⟨270, 2, 23, 26⟩, ⟨271, 2, 27, 30⟩, ⟨272, 2, 31, 34⟩]
    ++ [⟨273, 3, 35, 42⟩, ⟨274, 3, 43, 50⟩, ⟨275, 3, 51, 58⟩, ⟨276, 3, 59, 66⟩]
    ++ [⟨277, 4, 67, 82⟩, ⟨278, 4, 83, 98⟩, ⟨279, 4, 99, 114⟩, ⟨280, 4, 115, 130⟩]
    ++ [⟨281, 5, 131, 162⟩, ⟨282, 5, 163, 194⟩, ⟨283, 5, 195, 226⟩, ⟨284, 5, 227, 257⟩, ⟨285, 0, 258, 258⟩]

/-- The order in which the lengths of the code-length code are sent (R57). -/
def clOrder : List Nat := [16, 17, 18, 0, 8, 7, 9, 6, 10, 5, 11, 4, 12, 3, 13, 2, 14, 1, 15]

/-- One row of a Huffman table: a symbol, its code length and its code as a number. -/
structure CodeRow where
  symbol : Nat
  length : Nat
  code : Nat
  deriving DecidableEq, Repr

/-- The code-length code of the zero-run block (R83); every other symbol is unused. -/
def clTable : List CodeRow := [⟨0, 2, 0b00⟩, ⟨1, 2, 0b01⟩, ⟨18, 2, 0b10⟩, ⟨2, 3, 0b110⟩, ⟨3, 3, 0b111⟩]

/-- The 18 three-bit lengths of R83 in the order they are sent. -/
def clLengthsSent : List Nat := [0, 0, 2, 2, 0, 0, 0, 0, 0, 0, 0, 0, 0, 3, 0, 3, 0, 2]

/-- The literal/length code of the zero-run block for the excess symbol `xc` (R85): `LL285`, `LL0`, `LL256` and `LLX`. -/
def llTable (xc : Nat) : List CodeRow := [⟨285, 1, 0b0⟩, ⟨0, 2, 0b10⟩, ⟨256, 3, 0b110⟩, ⟨xc, 3, 0b111⟩]

/-- The distance code of the zero-run block (R85): `D0`. -/
def distTable : List CodeRow := [⟨0, 1, 0b0⟩]

/-- The code length of a symbol in a Huffman table, 0 when the table does not use it. -/
def codeLengthIn (table : List CodeRow) (sym : Nat) : Nat :=
  match table.find? (fun r => r.symbol == sym) with
  | some r => r.length
  | none => 0

end Sys2Proof.Machine
end

