-- ==== Sys2Proof/Machine/Stream.lean ====
section
/-! DEFINITION. Bits and bytes: the packing of a bit stream into bytes (R7, R31), the bit sequence a writer stands for (R11), and the
byte strings of R6 and R18. -/

namespace Sys2Proof.Machine

/-- `zeros(k)`: `k` bytes of value 0 (R6). -/
def zeros (k : Nat) : List Byte := List.replicate k 0

/-- The bits of one byte, from bit 0 to bit 7 (R7). -/
def byteBits (b : Byte) : List Bool := (List.range 8).map (fun i => b.getLsbD i)

/-- `bits(bytes)`: each byte from bit 0 to bit 7, bytes in order (R7). -/
def bitsOf (bytes : List Byte) : List Bool := bytes.flatMap byteBits

/-- The valid bits of the partial byte, the oldest first (R11). -/
def partialBits (w : BitWriter) : List Bool := (List.range w.cnt.toNat).map (fun i => w.cur.getLsbD i)

/-- `stream(bw)` (R11). -/
def streamOf (w : BitWriter) : List Bool := bitsOf w.done ++ partialBits w

/-- The number whose bit `i` is element `i` of the list. -/
def bitsToNat : List Bool → Nat
  | [] => 0
  | b :: bs => b.toNat + 2 * bitsToNat bs

/-- Byte `k` of a bit stream: stream bit `8k + j` is its bit `j` (R31). Bits past the end are 0. -/
def byteAt (bits : List Bool) (k : Nat) : Byte := BitVec.ofNat 8 (bitsToNat ((bits.drop (8 * k)).take 8))

/-- The bytes a bit stream completes, packed by R31. -/
def packBytes (bits : List Bool) : List Byte := (List.range (bits.length / 8)).map (byteAt bits)

/-- The writer that holds a bit stream (R11, R31). -/
def packed (bits : List Bool) : BitWriter where
  done := packBytes bits
  cur := byteAt bits (bits.length / 8)
  cnt := BitVec.ofNat 3 (bits.length % 8)

/-- `flatten` of an encoded block (R18): for a TRIPLE, the preamble, the zero bytes the host emits (R43), the postamble. -/
def flatten : EncodedBlock → List Byte
  | .plain b => b
  | .triple p z q => p ++ zeros z ++ q

/-- `blocklen` (R18). -/
def blockLen (e : EncodedBlock) : Nat := (flatten e).length

end Sys2Proof.Machine
end

