-- ==== Sys2Proof/Machine/Operands.lean ====
section
/-! DEFINITION. The operand forms (R46): the bit field of a push, in both orders, the payload, and the zero-extended checksum. -/

namespace Sys2Proof.Machine

/-- "truncated mod 2^nbits before use" (R46, R61). -/
def truncated (value nbits : Nat) : Nat := value % 2 ^ nbits

/-- The bits of the field in the order `Push` emits them, bit 0 first (R61). -/
def fieldBits (value nbits : Nat) : List Bool := (List.range nbits).map (fun i => (truncated value nbits).testBit i)

/-- The bits of the field in the order `PushRev` emits them, bit `nbits - 1` first (R62). -/
def fieldBitsRev (value nbits : Nat) : List Bool :=
  (List.range nbits).reverse.map (fun i => (truncated value nbits).testBit i)

/-- `rev_k(v)`: the `k`-bit value whose bit `i` is `v[k-1-i]` (R6). -/
def revBits (k v : Nat) : Nat := bitsToNat ((List.range k).map (fun i => v.testBit (k - 1 - i)))

/-- The payload of the command the host offers next (R41). Where the host offers no command there is no payload. -/
def payload (s : State) : List Byte :=
  match s.input with
  | .command c :: _ => c.data
  | .reset :: _ => []
  | [] => []

/-- How many payload bytes a command announces: `arg` of FE_ENCODE and AD_COMBINE, none for any other command (R41, R50). -/
def announcedLength : Instr → Nat
  | .bwPush _ _ => 0
  | .bwPushRev _ _ => 0
  | .bwAligned => 0
  | .bwClear => 0
  | .bwExtract => 0
  | .feEncode len => len
  | .zrEncode _ => 0
  | .adLoad _ => 0
  | .adCombine len => len
  | .adZeroRun _ => 0
  | .adRead => 0

/-- `zext_64(adler)` (R49). -/
def zextAdler (c : Word32) : Word64 := c.setWidth 64

end Sys2Proof.Machine
end

