-- ==== Sys2Proof/Machine/Flags.lean ====
section
/-! DEFINITION. The block's two status conditions (R16): `aligned`, a predicate of the writer, and the `fault` output. There are no
condition codes, so no arithmetic command computes a flag. -/

namespace Sys2Proof.Machine

/-- `Aligned()`: true iff the partial byte is empty (R16, R63). -/
def aligned (w : BitWriter) : Bool := w.cnt == 0

/-- The answer of BW_ALIGNED: 1 if aligned, else 0 (R63). -/
def alignedScalar (w : BitWriter) : Word64 := if aligned w then 1 else 0

/-- The `fault` output is a level equal to `fault.valid` (R129). -/
def faultOutput (s : State) : Bool := s.faultValid

end Sys2Proof.Machine
end

