-- ==== Sys2Proof/Machine/Ops.lean ====
section
/-! DEFINITION. The named operations of R8: the bit writer's primitives (R60 to R65), the responses (R49), `raise Fault` (R123) and the
return from a fault, which is reset (R125, R140), and the common checks every command applies first (R122). -/

namespace Sys2Proof.Machine

/-! ### Field updates -/

/-- `bw <- w`. -/
def setBw (s : State) (w : BitWriter) : State := { s with bw := w }

/-- `adler <- c`. -/
def setAdler (s : State) (c : Word32) : State := { s with adler := c }

/-- The two writes of R123: `fault.valid <- 1`, `fault.code <- code`. -/
def latchFault (s : State) (code : BitVec 4) : State := { s with faultValid := true, faultCode := code }

/-- The command is consumed, word and payload, and answered (R38, R49). -/
def answer (s : State) (r : Response) : State :=
  { s with input := s.input.tail, responses := s.responses ++ [r] }

/-! ### Responses -/

/-- `respond(variant = NONE)` (R49). -/
def respNone : Response where
  status := 0
  variant := .none
  scalar := 0
  seg0 := []
  seg1 := []

/-- `respond(variant = SCALAR, scalar = v)` (R49). -/
def respScalar (v : Word64) : Response where
  status := 0
  variant := .scalar
  scalar := v
  seg0 := []
  seg1 := []

/-- `respond(variant = PLAIN, seg0 = b)` (R49). -/
def respPlain (b : List Byte) : Response where
  status := 0
  variant := .plain
  scalar := 0
  seg0 := b
  seg1 := []

/-- `respond(variant = TRIPLE, seg0 = p, scalar = z, seg1 = q)` (R49). -/
def respTriple (p : List Byte) (z : Nat) (q : List Byte) : Response where
  status := 0
  variant := .triple
  scalar := BitVec.ofNat 64 z
  seg0 := p
  seg1 := q

/-- The response of an encoder (R49, R80). -/
def respBlock : EncodedBlock → Response
  | .plain b => respPlain b
  | .triple p z q => respTriple p z q

/-- "When `status ≠ 0` all other fields are void" (R49, R123). -/
def respStatus (code : BitVec 4) : Response where
  status := code
  variant := .none
  scalar := 0
  seg0 := []
  seg1 := []

/-- `rsp_variant` as its 2 bits (R49). -/
def variantBits : Variant → BitVec 2
  | .none => 0
  | .scalar => 1
  | .plain => 2
  | .triple => 3

/-- One transfer on the bytes-out channel (R44). -/
structure DoutTransfer where
  byte : Byte
  seg : Bool
  last : Bool
  deriving DecidableEq, Repr

/-- The transfers of one segment, `dout_last` on its last byte (R44, R149). -/
def segmentTransfers (seg : Bool) : List Byte → List DoutTransfer
  | [] => []
  | [b] => [⟨b, seg, true⟩]
  | b :: rest => ⟨b, seg, false⟩ :: segmentTransfers seg rest

/-- The bytes-out transfers of a response: all of `seg0`, then all of `seg1` (R44). -/
def doutOf (r : Response) : List DoutTransfer := segmentTransfers false r.seg0 ++ segmentTransfers true r.seg1

/-! ### The bit writer (R60 to R65) -/

/-- `len(bw.done) < BW_CAP` (R60); never false when `BW_CAP` is unbounded. -/
def hasRoom (cap : Option Nat) (done : List Byte) : Bool :=
  match cap with
  | none => true
  | some c => decide (done.length < c)

/-- `bw.cur | (b << bw.cnt)` (R60). -/
def placeBit (w : BitWriter) (b : Bool) : Byte := w.cur ||| ((BitVec.ofBool b).setWidth 8 <<< w.cnt.toNat)

/-- `PutBit(b)` (R60). -/
def putBit (cap : Option Nat) (b : Bool) (w : BitWriter) : Except FaultCode BitWriter :=
  if w.cnt = 7 then
    if hasRoom cap w.done then .ok { done := w.done ++ [placeBit w b], cur := 0, cnt := 0 } else .error .bwOverflow
  else .ok { w with cur := placeBit w b, cnt := w.cnt + 1 }

/-- `PutBit` of each bit of a list in turn. -/
def putBits (cap : Option Nat) : List Bool → BitWriter → Except FaultCode BitWriter
  | [], w => .ok w
  | b :: bs, w =>
    match putBit cap b w with
    | .ok w' => putBits cap bs w'
    | .error e => .error e

/-- `Push(value, nbits)` (R61). -/
def push (cap : Option Nat) (value nbits : Nat) (w : BitWriter) : Except FaultCode BitWriter :=
  putBits cap (fieldBits value nbits) w

/-- `PushRev(value, nbits)` (R62). -/
def pushRev (cap : Option Nat) (value nbits : Nat) (w : BitWriter) : Except FaultCode BitWriter :=
  putBits cap (fieldBitsRev value nbits) w

/-- `Clear()` (R64). -/
def clearWriter (_ : BitWriter) : BitWriter := BitWriter.empty

/-- `Extract()` (R65). -/
def extract (w : BitWriter) : Except FaultCode (List Byte) :=
  if aligned w then .ok w.done else .error .extractUnaligned

/-- The byte-wise form of `Push` that R67 gives, for an unbounded `BW_CAP`. -/
def pushBytewise (value nbits : Nat) (w : BitWriter) : BitWriter :=
  let acc := w.cur.toNat ||| (truncated value nbits <<< w.cnt.toNat)
  let t := w.cnt.toNat + nbits
  { done := w.done ++ (List.range (t / 8)).map (fun j => BitVec.ofNat 8 (acc >>> (8 * j)))
    cur := BitVec.ofNat 8 (acc >>> (8 * (t / 8)))
    cnt := BitVec.ofNat 3 (t % 8) }

/-! ### Faults and reset -/

/-- The codes of R120. -/
def faultBits : FaultCode → BitVec 4
  | .illegalCommand => 1
  | .payloadLength => 2
  | .extractUnaligned => 3
  | .bwOverflow => 4
  | .zrUnderflow => 5
  | .zrExcessRange => 6

/-- `raise Fault(code)` (R123): the fault register is written, the command is answered with its status and nothing else. Nothing is
saved and control goes nowhere. The other registers keep the values they had before the command: R123 says so for faults 1 and 2
and permits it for 3 to 6. DESIGN CHOICE, log entry 5. -/
def raiseFault (e : FaultCode) (s : State) : State := answer (latchFault s (faultBits e)) (respStatus (faultBits e))

/-- The answer of a faulted block to any command (R124): `status = fault.code`, no register changes. -/
def answerFaulted (s : State) : State := answer s (respStatus s.faultCode)

/-- Reset (R140), the only way out of the faulted state (R125): every register takes its value of R22, responses in transit are
dropped. What the host does after the reset is still to come. -/
def applyReset (later : List HostAction) (s : State) : State :=
  { State.resetWith s.params with input := later }

/-- With no command offered the block waits (R14, R150). -/
def idle (s : State) : State := s

/-- An illegal word (R122 steps 1 and 2). -/
def rejectWord (s : State) : State := if s.faultValid then answerFaulted s else raiseFault .illegalCommand s

/-- The order of checks of R122 for a legal word that announces `len` payload bytes: a faulted block does nothing; a wrong payload
length faults; then the command's own rule `body` runs and answers, or its failing assertion raises its fault. -/
def runCommand (len : Nat) (body : State → Except FaultCode (State × Response)) (s : State) : State :=
  if s.faultValid then answerFaulted s
  else if (payload s).length ≠ len then raiseFault .payloadLength s
  else
    match body s with
    | .error e => raiseFault e s
    | .ok (s', r) => answer s' r

end Sys2Proof.Machine
end

