-- ==== Sys2Proof/Machine/Adler32.lean ====
section
/-! DEFINITION. The two checksum functions (R100, R101) and the meanings of the adler32_accumulator commands (R102 to R105). -/

namespace Sys2Proof.Machine

/-- `c[15:0]` (R13). -/
def adlerS1 (c : Word32) : Nat := (c.extractLsb' 0 16).toNat

/-- `c[31:16]` (R13). -/
def adlerS2 (c : Word32) : Nat := (c.extractLsb' 16 16).toNat

/-- `(s2 << 16) | s1` (R100). -/
def adlerPack (s2 s1 : Nat) : Word32 := BitVec.ofNat 32 (s2 <<< 16 ||| s1)

/-- The loop of R100 over the data, on the pair of sub-sums `(s1, s2)`. -/
def adlerSums : List Byte → Nat × Nat → Nat × Nat
  | [], s => s
  | b :: bs, (s1, s2) =>
    let s1' := (s1 + b.toNat) % adlerMod
    adlerSums bs (s1', (s2 + s1') % adlerMod)

/-- `AdlerCombine(c, data)` (R100). -/
def adlerCombine (c : Word32) (data : List Byte) : Word32 :=
  let s := adlerSums data (adlerS1 c, adlerS2 c)
  adlerPack s.2 s.1

/-- `AdlerZeroRun(c, n)` (R101): the exact product, then the remainder. -/
def adlerZeroRun (c : Word32) (n : Nat) : Word32 :=
  adlerPack ((adlerS2 c + n * adlerS1 c) % adlerMod) (adlerS1 c)

/-- `AD_LOAD checksum` (R102). -/
def execAdLoad (checksum : Word32) (s : State) : Host.Outcome State Fault Refusal :=
  .next (runCommand 0 (fun s => .ok (setAdler s checksum, respScalar (zextAdler checksum))) s)

/-- `AD_COMBINE [data]` (R103). -/
def execAdCombine (len : Nat) (s : State) : Host.Outcome State Fault Refusal :=
  .next (runCommand len (fun s =>
    let c := adlerCombine s.adler (payload s)
    .ok (setAdler s c, respScalar (zextAdler c))) s)

/-- `AD_ZERO_RUN n` (R104). -/
def execAdZeroRun (n : Nat) (s : State) : Host.Outcome State Fault Refusal :=
  .next (runCommand 0 (fun s =>
    let c := adlerZeroRun s.adler n
    .ok (setAdler s c, respScalar (zextAdler c))) s)

/-- `AD_READ` (R105). -/
def execAdRead (s : State) : Host.Outcome State Fault Refusal :=
  .next (runCommand 0 (fun s => .ok (s, respScalar (zextAdler s.adler))) s)

end Sys2Proof.Machine
end

