-- ==== Sys2Proof/Machine/BitWriterUnit.lean ====
section
/-! DEFINITION. The meanings of the bit_writer commands (R61 to R65). -/

namespace Sys2Proof.Machine

/-- `BW_PUSH value, nbits` (R61). -/
def execBwPush (value : Word64) (nbits : Nat) (s : State) : Host.Outcome State Fault Refusal :=
  .next (runCommand 0 (fun s => do
    let w ← push s.params.bwCap value.toNat nbits s.bw
    return (setBw s w, respNone)) s)

/-- `BW_PUSH_REV value, nbits` (R62). -/
def execBwPushRev (value : Word64) (nbits : Nat) (s : State) : Host.Outcome State Fault Refusal :=
  .next (runCommand 0 (fun s => do
    let w ← pushRev s.params.bwCap value.toNat nbits s.bw
    return (setBw s w, respNone)) s)

/-- `BW_ALIGNED` (R63). -/
def execBwAligned (s : State) : Host.Outcome State Fault Refusal :=
  .next (runCommand 0 (fun s => .ok (s, respScalar (alignedScalar s.bw))) s)

/-- `BW_CLEAR` (R64). -/
def execBwClear (s : State) : Host.Outcome State Fault Refusal :=
  .next (runCommand 0 (fun s => .ok (setBw s (clearWriter s.bw), respNone)) s)

/-- `BW_EXTRACT` (R65). -/
def execBwExtract (s : State) : Host.Outcome State Fault Refusal :=
  .next (runCommand 0 (fun s => do
    let b ← extract s.bw
    return (s, respPlain b)) s)

end Sys2Proof.Machine
end

