-- ==== Sys2Proof/Machine/FixedEncoder.lean ====
section
/-! DEFINITION. The fixed encoder (R70 to R72) and the meaning of FE_ENCODE. -/

namespace Sys2Proof.Machine

/-- `FixLit(x)` (R70): the fixed-Huffman code of a literal byte. -/
def fixLit (cap : Option Nat) (x : Byte) (w : BitWriter) : Except FaultCode BitWriter :=
  pushRev cap (fixedLiteralCode x.toNat).1 (fixedLiteralCode x.toNat).2 w

/-- `FixLit` of each payload byte in turn (R72). -/
def fixLits (cap : Option Nat) : List Byte → BitWriter → Except FaultCode BitWriter
  | [], w => .ok w
  | x :: xs, w =>
    match fixLit cap x w with
    | .ok w' => fixLits cap xs w'
    | .error e => .error e

/-- `while bw.cnt ≠ 0: Push(0, 1)` (R71), at most `fuel` times. Seven are enough from any state (R71: "0 to 7 pad bits"). DEDUCED, log
entry 7. -/
def padToByte (cap : Option Nat) : Nat → BitWriter → Except FaultCode BitWriter
  | 0, w => .ok w
  | fuel + 1, w =>
    if aligned w then .ok w
    else
      match push cap 0 1 w with
      | .ok w' => padToByte cap fuel w'
      | .error e => .error e

/-- `AlignStored()` (R71): nothing when aligned, else an empty stored block (R55). -/
def alignStored (cap : Option Nat) (w : BitWriter) : Except FaultCode BitWriter :=
  if aligned w then .ok w
  else do
    let w ← push cap 0 1 w
    let w ← push cap 0 2 w
    let w ← padToByte cap 7 w
    let w ← push cap 0x0000 16 w
    push cap 0xFFFF 16 w

/-- `FixedEncode(data)` (R72): the byte string and the writer it leaves. -/
def fixedEncode (cap : Option Nat) (data : List Byte) (w : BitWriter) : Except FaultCode (List Byte × BitWriter) := do
  let w ← push cap 0 1 (clearWriter w)
  let w ← push cap 1 2 w
  let w ← fixLits cap data w
  let w ← pushRev cap 0 7 w
  let w ← alignStored cap w
  let b ← extract w
  return (b, clearWriter w)

/-- `FE_ENCODE [data]` (R72). -/
def execFeEncode (len : Nat) (s : State) : Host.Outcome State Fault Refusal :=
  .next (runCommand len (fun s => do
    let r ← fixedEncode s.params.bwCap (payload s) s.bw
    return (setBw s r.2, respPlain r.1)) s)

end Sys2Proof.Machine
end

