-- ==== Sys2Proof/Machine/ZeroRunEncoder.lean ====
section
/-! DEFINITION. The zero-run encoder (R80 to R93) and the meaning of ZR_ENCODE. -/

namespace Sys2Proof.Machine

/-- What `LengthCode` returns (R81). -/
structure LengthCode where
  code : Nat
  eb : Nat
  ev : Nat
  deriving DecidableEq, Repr

/-- `LengthCode(L)` (R81): the row of the table of R59 whose range contains `L`, or `Fault(ZrExcessRange)`. -/
def lengthCode (L : Nat) : Except FaultCode LengthCode :=
  match lengthTable.find? (fun r => decide (r.first ≤ L) && decide (L ≤ r.last)) with
  | some r => .ok { code := r.symbol, eb := r.extra, ev := L - r.first }
  | none => .error .zrExcessRange

/-- The closed form R81 gives beside the table, for 3 ≤ `L` ≤ 258. -/
def lengthCodeClosed (L : Nat) : LengthCode :=
  let m := L - 3
  if L = 258 then { code := 285, eb := 0, ev := 0 }
  else if m ≤ 7 then { code := 257 + m, eb := 0, ev := 0 }
  else
    let eb := Nat.log2 m - 2
    { code := 257 + 4 * eb + m / 2 ^ eb, eb := eb, ev := m % 2 ^ eb }

/-- The excess and the symbol that carries it (R87). -/
structure Excess where
  num : Nat
  xc : Nat
  xeb : Nat
  xev : Nat
  deriving DecidableEq, Repr

/-- Excess selection (R87): symbol 257 as a dummy when fewer than 3 bytes are in excess. -/
def selectExcess (n : Nat) : Except FaultCode Excess :=
  let num := (n - 1) % unit258
  if 3 ≤ num then
    match lengthCode num with
    | .ok c => .ok { num := num, xc := c.code, xeb := c.eb, xev := c.ev }
    | .error e => .error e
  else .ok { num := num, xc := 257, xeb := 0, xev := 0 }

/-- `PushRev(code(sym), length(sym))` for a symbol of a Huffman table (R32, R83, R85). A symbol that the table does not use has length 0
and pushes nothing; no rule pushes one. -/
def putCode (cap : Option Nat) (table : List CodeRow) (sym : Nat) (w : BitWriter) : Except FaultCode BitWriter :=
  match table.find? (fun r => r.symbol == sym) with
  | some r => pushRev cap r.code r.length w
  | none => .ok w

/-- `PutCL(sym)` (R83). -/
def putCL (cap : Option Nat) (sym : Nat) (w : BitWriter) : Except FaultCode BitWriter := putCode cap clTable sym w

/-- `PutCL(18, count)` (R83): the symbol, then `count - 11` in 7 extra bits. -/
def putCL18 (cap : Option Nat) (count : Nat) (w : BitWriter) : Except FaultCode BitWriter := do
  let w ← putCL cap 18 w
  push cap (count - 11) 7 w

/-- The loop `for j = 1 .. g: PutCL(0)` of R84. -/
def putCLZeros (cap : Option Nat) : Nat → BitWriter → Except FaultCode BitWriter
  | 0, w => .ok w
  | g + 1, w =>
    match putCL cap 0 w with
    | .ok w' => putCLZeros cap g w'
    | .error e => .error e

/-- `ZeroGap(g)` (R84). -/
def zeroGap (cap : Option Nat) (g : Nat) (w : BitWriter) : Except FaultCode BitWriter :=
  if 11 ≤ g then putCL18 cap g w else putCLZeros cap g w

/-- The loop of R88: `Push(l, 3)` for each length of a list. -/
def pushLengths (cap : Option Nat) : List Nat → BitWriter → Except FaultCode BitWriter
  | [], w => .ok w
  | l :: ls, w =>
    match push cap l 3 w with
    | .ok w' => pushLengths cap ls w'
    | .error e => .error e

/-- Steps 1 and 2 (R88): the block header and the lengths of the code-length code, on a cleared writer. -/
def zrHeader (cap : Option Nat) (w : BitWriter) : Except FaultCode BitWriter := do
  let w ← push cap 0 1 (clearWriter w)
  let w ← push cap 2 2 w
  let w ← push cap 29 5 w
  let w ← push cap 1 5 w
  let w ← push cap 14 4 w
  pushLengths cap clLengthsSent w

/-- Steps 3 and 4 (R89): the 288 code lengths of the two trees. -/
def zrTrees (cap : Option Nat) (xc : Nat) (w : BitWriter) : Except FaultCode BitWriter := do
  let w ← putCL cap 2 w
  let w ← putCL18 cap 138 w
  let w ← putCL18 cap 117 w
  let w ← putCL cap 3 w
  let w ← zeroGap cap (xc - 257) w
  let w ← putCL cap 3 w
  let w ← zeroGap cap (284 - xc) w
  let w ← putCL cap 1 w
  let w ← putCL cap 1 w
  putCL cap 0 w

/-- The working values between the steps of the large path (R20). -/
structure ZrWork where
  rem : Nat
  owed : Bool
  bw : BitWriter
  deriving DecidableEq, Repr

/-- The half pair of R90: on an odd `bw.cnt`, symbol 285 alone, its distance bit owed. -/
def zrHalfPair (cap : Option Nat) (rem : Nat) (w : BitWriter) : Except FaultCode ZrWork :=
  if w.cnt.toNat % 2 = 1 then
    if unit258 ≤ rem then do
      let w ← pushRev cap 0b0 1 w
      return { rem := rem - unit258, owed := true, bw := w }
    else .error .zrUnderflow
  else .ok { rem := rem, owed := false, bw := w }

/-- The loop `while bw.cnt ≠ 0` of R90, at most `fuel` times: one pair's worth of bits, one unit accounted for. The bit count is even
here, so three are enough (R90: "0 to 3 times"). DEDUCED, log entry 7. -/
def zrAlignLoop (cap : Option Nat) : Nat → ZrWork → Except FaultCode ZrWork
  | 0, k => .ok k
  | fuel + 1, k =>
    if aligned k.bw then .ok k
    else if unit258 ≤ k.rem then
      match push cap 0 2 k.bw with
      | .ok w' => zrAlignLoop cap fuel { k with rem := k.rem - unit258, bw := w' }
      | .error e => .error e
    else .error .zrUnderflow

/-- Step 5 (R90): the literal zero, then the alignment. -/
def zrAlign (cap : Option Nat) (n xc : Nat) (w : BitWriter) : Except FaultCode ZrWork := do
  let w ← putCode cap (llTable xc) 0 w
  let k ← zrHalfPair cap (n - 1) w
  zrAlignLoop cap 3 k

/-- Step 6 (R91): `rem div 1032`, the number of middle bytes. -/
def zrNumRepeats (rem : Nat) : Nat := rem / (unit258 * group4)

/-- `repeat k times: PutCode(sym)` of one table (R92). -/
def putCodeTimes (cap : Option Nat) (table : List CodeRow) (sym : Nat) : Nat → BitWriter → Except FaultCode BitWriter
  | 0, w => .ok w
  | k + 1, w =>
    match putCode cap table sym w with
    | .ok w' => putCodeTimes cap table sym k w'
    | .error e => .error e

/-- The left-over pairs of R92: `LL285` then `D0`, `q` times. -/
def zrPairs (cap : Option Nat) (xc : Nat) : Nat → BitWriter → Except FaultCode BitWriter
  | 0, w => .ok w
  | q + 1, w => do
    let w ← putCode cap (llTable xc) 285 w
    let w ← putCode cap distTable 0 w
    zrPairs cap xc q w

/-- The excess of R92: fewer than 3 bytes as literal zeros, else symbol `xc`, its extra bits and the distance bit. -/
def zrExcess (cap : Option Nat) (ex : Excess) (rem : Nat) (w : BitWriter) : Except FaultCode BitWriter :=
  if rem < 3 then putCodeTimes cap (llTable ex.xc) 0 rem w
  else do
    let w ← pushRev cap 0b111 3 w
    let w ← push cap ex.xev ex.xeb w
    putCode cap distTable 0 w

/-- Steps 6 (rest), 7 and 8 (R92): the postamble and the writer it leaves; `rem` is what the middle left. -/
def zrPostamble (cap : Option Nat) (ex : Excess) (owed : Bool) (rem : Nat) (w : BitWriter) :
    Except FaultCode (List Byte × BitWriter) := do
  let w ← if owed then putCode cap distTable 0 (clearWriter w) else .ok (clearWriter w)
  let w ← zrPairs cap ex.xc (rem / unit258) w
  if rem - unit258 * (rem / unit258) = ex.num then
    let w ← zrExcess cap ex (rem - unit258 * (rem / unit258)) w
    let w ← putCode cap (llTable ex.xc) 256 w
    let w ← alignStored cap w
    let b ← extract w
    return (b, clearWriter w)
  else .error .zrExcessRange

/-- Steps 1 to 5 (R88 to R90): the preamble's bytes and the working values after it. -/
def zrPreamble (cap : Option Nat) (n : Nat) (ex : Excess) (w : BitWriter) : Except FaultCode (List Byte × ZrWork) := do
  let w ← zrHeader cap w
  let w ← zrTrees cap ex.xc w
  let k ← zrAlign cap n ex.xc w
  let b ← extract k.bw
  return (b, k)

/-- The large path (R87 to R93): always a TRIPLE. -/
def zeroRunLarge (cap : Option Nat) (n : Nat) (w : BitWriter) : Except FaultCode (EncodedBlock × BitWriter) := do
  let ex ← selectExcess n
  let (preamble, k) ← zrPreamble cap n ex w
  let numRepeats := zrNumRepeats k.rem
  let (postamble, w) ← zrPostamble cap ex k.owed (k.rem - numRepeats * (unit258 * group4)) k.bw
  return (.triple preamble numRepeats postamble, w)

/-- `ZeroRunEncode(n)` (R80): the small path (R86) up to the threshold, the large path above it. -/
def zeroRunEncode (cap : Option Nat) (n : Nat) (w : BitWriter) : Except FaultCode (EncodedBlock × BitWriter) :=
  if n ≤ zrThreshold then do
    let (b, w) ← fixedEncode cap (zeros n) w
    return (.plain b, w)
  else zeroRunLarge cap n w

/-- `ZR_ENCODE n` (R80). -/
def execZrEncode (n : Nat) (s : State) : Host.Outcome State Fault Refusal :=
  .next (runCommand 0 (fun s => do
    let r ← zeroRunEncode s.params.bwCap n s.bw
    return (setBw s r.2, respBlock r.1)) s)

end Sys2Proof.Machine
end

