-- ==== Sys2Proof/Machine/Dispatch.lean ====
section
/-! DEFINITION. One arm per command of the opcode map (R47), each a direct call of its meaning. -/

namespace Sys2Proof.Machine

/-- What a command does (R47): its own meaning, which applies the common checks of R122 first. -/
def exec (i : Instr) (s : State) : Host.Outcome State Fault Refusal :=
  match i with
  | .bwPush value nbits => Sys2Proof.Machine.execBwPush value nbits s
  | .bwPushRev value nbits => Sys2Proof.Machine.execBwPushRev value nbits s
  | .bwAligned => Sys2Proof.Machine.execBwAligned s
  | .bwClear => Sys2Proof.Machine.execBwClear s
  | .bwExtract => Sys2Proof.Machine.execBwExtract s
  | .feEncode len => Sys2Proof.Machine.execFeEncode len s
  | .zrEncode n => Sys2Proof.Machine.execZrEncode n s
  | .adLoad checksum => Sys2Proof.Machine.execAdLoad checksum s
  | .adCombine len => Sys2Proof.Machine.execAdCombine len s
  | .adZeroRun n => Sys2Proof.Machine.execAdZeroRun n s
  | .adRead => Sys2Proof.Machine.execAdRead s

end Sys2Proof.Machine
end

