-- ==== Sys2Proof/Machine/Fetch.lean ====
section
/-! DEFINITION. How a command reaches the block (R44, R50): what the host offers next, and the placing of a command for the next step. -/

namespace Sys2Proof.Machine

/-- A command word with the payload it announces, all of it zeros (R41, R50). An illegal word announces none. -/
def commandOfWord (w : CmdWord) : Command where
  word := w
  data :=
    match decode w with
    | .ok i => zeros (announcedLength i)
    | .error _ => []

/-- The host offers this command before everything else it has in mind. -/
def offer (c : Command) (s : State) : State := { s with input := .command c :: s.input }

/-- The state in which the next command is the opcode-table word `w` of `nbits` bits, its payload zeros; `s` itself where the number is
no command word. -/
def offerTableWord (s : State) (nbits w : Nat) : State :=
  match tableWord nbits w with
  | some cw => offer (commandOfWord cw) s
  | none => s

end Sys2Proof.Machine
end

