-- ==== Sys2Proof/Machine/Step.lean ====
section
/-! DEFINITION. One step: the host's next action takes effect (R14, R38). With nothing offered the block waits; `rst` resets it (R140); an
illegal word faults (R48, R122); a legal word runs its command. -/

namespace Sys2Proof.Machine

/-- One atomic transition (R14, R122). -/
def step (s : State) : Host.Outcome State Fault Refusal :=
  match s.input with
  | [] => .next (idle s)
  | .reset :: later => .next (applyReset later s)
  | .command c :: _ =>
    match decode c.word with
    | .ok i => exec i s
    | .error _ => .next (rejectWord s)

/-- `s` with the opcode-table word offered as the next command, so that the next step runs it (log entry 9). -/
def State.withFetchWord (s : State) (nbits w : Nat) : State := offerTableWord s nbits w

end Sys2Proof.Machine
end

