-- ==== Sys2Proof/Machine/Inflate.lean ====
section
/-! DEFINITION. A decoder of the formats the block emits, written from R53 to R59, R33, R97 and R114 to R116. It is NO part of the block, which
never decodes (R2, R4): it is the "conforming decoder" in whose terms R18, R74, R94, R97 and R117 say that an encoding is valid. The spec
leaves open which malformed inputs such a decoder refuses. DESIGN CHOICE, log entry 12: this one is stricter than a general decoder in
some points (a match may not reach before its own block, the only distance symbol is 0, a dynamic block has a distance code, a fixed
block has literals and end-of-block only, the trailer follows the last block at once and nothing follows it) and laxer in others (no bound
on HLIT and HDIST; the window and FDICT fields of the zlib header are not read). -/

namespace Sys2Proof.Machine

/-- A field of `k` bits, least significant bit first (R32), and what follows it. -/
def takeBits (k : Nat) (bits : List Bool) : Option (Nat × List Bool) :=
  if k ≤ bits.length then some (bitsToNat (bits.take k), bits.drop k) else none

/-- A symbol of a Huffman code, most significant bit first (R32), and what follows it. -/
def readSym (table : List CodeRow) (bits : List Bool) : Option (Nat × List Bool) :=
  match table.find? (fun r => (fieldBitsRev r.code r.length).isPrefixOf bits) with
  | some r => some (r.symbol, bits.drop r.length)
  | none => none

/-- `bl_count[L]` of R58, with `bl_count[0] = 0`. -/
def blCount (lengths : List Nat) (L : Nat) : Nat := if L = 0 then 0 else lengths.count L

/-- `next_code[L]` of R58 before any code is assigned. -/
def firstCode (lengths : List Nat) : Nat → Nat
  | 0 => 0
  | L + 1 => (firstCode lengths L + blCount lengths L) * 2

/-- The canonical code of R58, given how many symbols of each length came before. -/
def canonicalFrom (lengths : List Nat) : Nat → List Nat → List CodeRow
  | _, [] => []
  | sym, L :: rest =>
    if L = 0 then canonicalFrom lengths (sym + 1) rest
    else ⟨sym, L, firstCode lengths L + (lengths.take sym).count L⟩ :: canonicalFrom lengths (sym + 1) rest

/-- The canonical code of a list of code lengths, symbol `i` at place `i` (R58). -/
def canonicalCode (lengths : List Nat) : List CodeRow := canonicalFrom lengths 0 lengths

/-- The Kraft sum over the used symbols, in units of `2^-15`. -/
def kraftSum (lengths : List Nat) : Nat := ((lengths.filter (fun L => L != 0)).map (fun L => 2 ^ (15 - L))).sum

/-- "A code is complete when the sum over used symbols of `2^-L` is 1" (R58). -/
def completeCode (lengths : List Nat) : Bool := kraftSum lengths == 2 ^ 15

/-- A distance code is complete, or it is a single code of length 1 (R97). -/
def distanceCodeOk (lengths : List Nat) : Bool :=
  completeCode lengths || lengths.filter (fun L => L != 0) == [1]

/-- The fixed literal code with end-of-block (R54). -/
def fixedTable : List CodeRow :=
  (List.range 256).map (fun x => ⟨x, (fixedLiteralCode x).2, (fixedLiteralCode x).1⟩) ++ [⟨256, 7, 0⟩]

/-- A match at distance 1 (R59): the last byte so far, `L` more times. -/
def copyLast (L : Nat) (out : List Byte) : Option (List Byte) :=
  match out.getLast? with
  | some b => some (out ++ List.replicate L b)
  | none => none

/-- The length of a match and what follows its extra bits (R59). -/
def readLength (sym : Nat) (bits : List Bool) : Option (Nat × List Bool) :=
  match lengthTable.find? (fun r => r.symbol == sym) with
  | some r =>
    match takeBits r.extra bits with
    | some (ev, rest) => if r.first + ev ≤ r.last then some (r.first + ev, rest) else none
    | none => none
  | none => none

/-- The data of a Huffman block up to symbol 256: `out` is what the block has produced so far. -/
def inflateData (lit dist : List CodeRow) : Nat → List Byte → List Bool → Option (List Byte × List Bool)
  | 0, _, _ => none
  | fuel + 1, out, bits =>
    match readSym lit bits with
    | none => none
    | some (sym, bits) =>
      if sym < 256 then inflateData lit dist fuel (out ++ [BitVec.ofNat 8 sym]) bits
      else if sym = 256 then some (out, bits)
      else
        match readLength sym bits with
        | none => none
        | some (L, bits) =>
          match readSym dist bits with
          | some (0, bits) =>
            match copyLast L out with
            | some out => inflateData lit dist fuel out bits
            | none => none
          | _ => none

/-- `k` lengths of 3 bits (R56). -/
def readClLengths : Nat → List Bool → Option (List Nat × List Bool)
  | 0, bits => some ([], bits)
  | k + 1, bits =>
    match takeBits 3 bits with
    | none => none
    | some (l, bits) =>
      match readClLengths k bits with
      | none => none
      | some (ls, bits) => some (l :: ls, bits)

/-- The lengths of the code-length code by symbol, from the order they are sent in (R57); a symbol not sent has length 0. -/
def clLengthsBySymbol (sent : List Nat) : List Nat :=
  (List.range 19).map (fun sym => sent.getD (clOrder.idxOf sym) 0)

/-- How many lengths a code-length symbol stands for, which, and what follows its extra bits (R57). -/
def readRun (sym : Nat) (soFar : List Nat) (bits : List Bool) : Option (List Nat × List Bool) :=
  if sym ≤ 15 then some ([sym], bits)
  else if sym = 16 then
    match soFar.getLast?, takeBits 2 bits with
    | some l, some (e, bits) => some (List.replicate (3 + e) l, bits)
    | _, _ => none
  else if sym = 17 then
    match takeBits 3 bits with
    | some (e, bits) => some (List.replicate (3 + e) 0, bits)
    | none => none
  else
    match takeBits 7 bits with
    | some (e, bits) => some (List.replicate (11 + e) 0, bits)
    | none => none

/-- Exactly `count` code lengths, coded with the code-length code (R56, R57). -/
def readCodeLengths (cl : List CodeRow) (count : Nat) : Nat → List Nat → List Bool → Option (List Nat × List Bool)
  | 0, _, _ => none
  | fuel + 1, soFar, bits =>
    if soFar.length = count then some (soFar, bits)
    else if count < soFar.length then none
    else
      match readSym cl bits with
      | none => none
      | some (sym, bits) =>
        match readRun sym soFar bits with
        | none => none
        | some (more, bits) => readCodeLengths cl count fuel (soFar ++ more) bits

/-- The trees of a dynamic block (R56, R97): the literal/length and the distance code, and what follows them. Every value of HLIT and HDIST is
taken, with no bound on the two counts: DESIGN CHOICE, log entry 12. -/
def readTrees (bits : List Bool) : Option (List CodeRow × List CodeRow × List Bool) := do
  let (hlit, bits) ← takeBits 5 bits
  let (hdist, bits) ← takeBits 5 bits
  let (hclen, bits) ← takeBits 4 bits
  let (sent, bits) ← readClLengths (hclen + 4) bits
  let cl := clLengthsBySymbol sent
  if completeCode cl then
    let count := hlit + 257 + (hdist + 1)
    let (lengths, bits) ← readCodeLengths (canonicalCode cl) count (count + 1) [] bits
    let lit := lengths.take (hlit + 257)
    let dist := lengths.drop (hlit + 257)
    if completeCode lit && distanceCodeOk dist then some (canonicalCode lit, canonicalCode dist, bits) else none
  else none

/-- A stored block after its header (R33, R55): up to the byte boundary, LEN, NLEN, the bytes. The stream is a whole number of bytes, so the
bits to the boundary are the remainder of what is left by 8. -/
def inflateStored (bits : List Bool) : Option (List Byte × List Bool) := do
  let (len, bits) ← takeBits 16 (bits.drop (bits.length % 8))
  let (nlen, bits) ← takeBits 16 bits
  if nlen = 0xFFFF - len && decide (8 * len ≤ bits.length) then
    some (packBytes (bits.take (8 * len)), bits.drop (8 * len))
  else none

/-- One DEFLATE block (R53): whether it is final, its bytes, and what follows it. -/
def inflateBlock (bits : List Bool) : Option (Bool × List Byte × List Bool) := do
  let (final, bits) ← takeBits 1 bits
  let (type, bits) ← takeBits 2 bits
  match type with
  | 0 =>
    let (out, bits) ← inflateStored bits
    some (final == 1, out, bits)
  | 1 =>
    let (out, bits) ← inflateData fixedTable [] (bits.length + 1) [] bits
    some (final == 1, out, bits)
  | 2 =>
    let (lit, dist, bits) ← readTrees bits
    let (out, bits) ← inflateData lit dist (bits.length + 1) [] bits
    some (final == 1, out, bits)
  | _ => none

/-- Blocks up to and with the first final one, or, where `untilFinal` is false, non-final blocks up to the end of the stream: the bytes,
and what follows. -/
def inflateBlocks (untilFinal : Bool) : Nat → List Bool → Option (List Byte × List Bool)
  | 0, _ => none
  | fuel + 1, bits =>
    if !untilFinal && bits.isEmpty then some ([], [])
    else
      match inflateBlock bits with
      | none => none
      | some (final, out, bits) =>
        if final then (if untilFinal then some (out, bits) else none)
        else
          match inflateBlocks untilFinal fuel bits with
          | some (more, bits) => some (out ++ more, bits)
          | none => none

/-- A byte string as a sequence of complete non-final DEFLATE blocks (R18): what it expands to. -/
def decodeBlocks (bytes : List Byte) : Option (List Byte) :=
  match inflateBlocks false (8 * bytes.length + 1) (bitsOf bytes) with
  | some (out, []) => some out
  | _ => none

/-- The 4-byte checksum trailer, most significant byte first (R33, R114). -/
def bigEndian (c : Word32) : List Byte :=
  [c.extractLsb' 24 8, c.extractLsb' 16 8, c.extractLsb' 8 8, c.extractLsb' 0 8]

/-- A zlib stream (R114, R116): a header that is a multiple of 31 with method 8, blocks up to a final one, and the Adler-32 of what they
expand to, big-endian. The window field and the preset-dictionary flag FDICT are not looked at: DESIGN CHOICE, log entry 12. -/
def decodeZlib (bytes : List Byte) : Option (List Byte) :=
  match bytes with
  | cmf :: flg :: rest =>
    if (cmf.toNat * 256 + flg.toNat) % 31 = 0 && cmf.toNat % 16 = 8 then
      match inflateBlocks true (8 * rest.length + 1) (bitsOf rest) with
      | some (out, tail) => if tail = bitsOf (bigEndian (adlerCombine 1 out)) then some out else none
      | none => none
    else none
  | _ => none

end Sys2Proof.Machine
end

