-- ==== Sys2Proof/Machine/HostStream.lean ====
section
/-! DEFINITION. The host's side (R4, R52, R110 to R117), outside the block: the pseudo-instructions as lists of commands, and what the host
assembles from the responses. No definition of the machine uses this file. -/

namespace Sys2Proof.Machine

/-- A command with its word (R45) and its payload (R41). -/
def commandOf (i : Instr) (data : List Byte) : Command where
  word := encode i
  data := data

/-- One BW_PUSH of a short constant field. -/
def pushCommand (value : Word64) (nbits : Nat) : Command := commandOf (.bwPush value nbits) []

/-- `FINAL_BLOCK` (R52, R115). -/
def finalBlockCommands : List Command :=
  [commandOf .bwClear [], pushCommand 1 1, pushCommand 0 2, pushCommand 0 5, pushCommand 0x0000 16, pushCommand 0xFFFF 16,
    commandOf .bwExtract []]

/-- `ALIGN_STORED` (R52) for a writer with `cnt` bits pending: the host pushes zero bits until BW_ALIGNED would answer 1. -/
def alignStoredCommands (cnt : Nat) : List Command :=
  if cnt = 0 then []
  else
    [pushCommand 0 1, pushCommand 0 2] ++ List.replicate ((8 - (cnt + 3) % 8) % 8) (pushCommand 0 1)
      ++ [pushCommand 0x0000 16, pushCommand 0xFFFF 16]

/-- The commands of `combine(c, data)` (R52). -/
def combineCommands (c : Word32) (data : List Byte) : List Command :=
  [commandOf (.adLoad c) [], commandOf (.adCombine data.length) data]

/-- The commands of `combine_zero_run(c, n)` (R52). -/
def combineZeroRunCommands (c : Word32) (n : Nat) : List Command :=
  [commandOf (.adLoad c) [], commandOf (.adZeroRun n) []]

/-- The commands as the host's actions. -/
def hostActions (commands : List Command) : List HostAction := commands.map .command

/-- `scalar[31:0]` of a response; none where it carries no scalar (R49). -/
def scalarOf (r : Response) : Option Word32 :=
  match r.variant with
  | .scalar => some (r.scalar.extractLsb' 0 32)
  | .none => none
  | .plain => none
  | .triple => none

/-- "take `scalar[31:0]`" (R52) of the last answer. -/
def takeScalar (responses : List Response) : Option Word32 :=
  match responses.getLast? with
  | some r => scalarOf r
  | none => none

/-- The host issues these commands to a block and takes `scalar[31:0]` of the last answer (R52); no value where that answer carries no scalar
(DESIGN CHOICE, log entry 16). -/
def issueAndTake (commands : List Command) (s : State) : Option Word32 :=
  match Host.Core.run core commands.length { s with input := hostActions commands } with
  | .next t => takeScalar t.responses
  | .fault _ => none
  | .refused _ => none

/-- The value of `combine(c, data)`: its commands, and `scalar[31:0]` of the answer to AD_COMBINE (R52). -/
def combineValue (c : Word32) (data : List Byte) (s : State) : Option Word32 := issueAndTake (combineCommands c data) s

/-- The value of `combine_zero_run(c, n)`: its commands, and `scalar[31:0]` of the answer to AD_ZERO_RUN (R52). -/
def combineZeroRunValue (c : Word32) (n : Nat) (s : State) : Option Word32 := issueAndTake (combineZeroRunCommands c n) s

/-- A call of the host's stream (R111, R112). -/
inductive ZsCall where
  | push (data : List Byte)
  | pushZeroes (n : Nat)
  deriving DecidableEq, Repr

/-- `ZS_PUSH [data]` (R111) and `ZS_PUSH_ZEROES n` (R112). -/
def callCommands : ZsCall → List Command
  | .push data => [commandOf (.adCombine data.length) data, commandOf (.feEncode data.length) data]
  | .pushZeroes n => [commandOf (.adZeroRun n) [], commandOf (.zrEncode n) []]

/-- The bytes a call represents (R110). -/
def callData : ZsCall → List Byte
  | .push data => data
  | .pushZeroes n => zeros n

/-- A length that the 64-bit `arg` can carry (R41, R46). -/
def callInRange : ZsCall → Bool
  | .push data => argInRange data.length
  | .pushZeroes n => argInRange n

/-- The commands of a whole stream: the calls, then AD_READ (R114). -/
def streamCommands (calls : List ZsCall) : List Command := calls.flatMap callCommands ++ [commandOf .adRead []]

/-- The encoded block of a response, for the two variants that carry one (R18, R49). -/
def blockOf (r : Response) : Option EncodedBlock :=
  match r.variant with
  | .plain => some (.plain r.seg0)
  | .triple => some (.triple r.seg0 r.scalar.toNat r.seg1)
  | .scalar => none
  | .none => none

/-- The zlib header (R116). -/
def zlibHeader : List Byte := [0x78, 0xDA]

/-- The terminating block (R115). -/
def finalBlock : List Byte := [0x01, 0x00, 0x00, 0xFF, 0xFF]

/-- `produce()` (R114). -/
def produce (blocks : List EncodedBlock) (c : Word32) : List Byte :=
  zlibHeader ++ blocks.flatMap flatten ++ finalBlock ++ bigEndian c

/-- `total_length()` (R113). -/
def totalLength (blocks : List EncodedBlock) : Nat := 2 + (blocks.map blockLen).sum + 5 + 4

/-- The zero bytes of a TRIPLE in sub-chunks of `ZERO_CHUNK` = `chunk` bytes (R43, R114), the last one shorter. -/
def zeroChunks (chunk z : Nat) : List (List Byte) :=
  List.replicate (z / chunk) (zeros chunk) ++ [zeros (z % chunk)]

/-- A block as the chunks the host yields (R114). -/
def blockChunks (chunk : Nat) : EncodedBlock → List (List Byte)
  | .plain b => [b]
  | .triple p z q => [p] ++ zeroChunks chunk z ++ [q]

/-- `produce()` as a sequence of byte chunks (R114). -/
def produceChunks (chunk : Nat) (blocks : List EncodedBlock) (c : Word32) : List (List Byte) :=
  [zlibHeader] ++ blocks.flatMap (blockChunks chunk) ++ [finalBlock, bigEndian c]

/-- The stream the host assembles from the responses to `streamCommands`: every encoded block in order, and the checksum that the last
response carries (R110, R114). Of a faulted run the spec says only that no claim rests on it (R124, R149, R150); there this is the stream of
whatever blocks were answered, with checksum 0 where the last answer carries no scalar: DESIGN CHOICE, log entry 16. -/
def assembled (responses : List Response) : List Byte :=
  produce (responses.filterMap blockOf) ((takeScalar responses).getD 0)

end Sys2Proof.Machine
end

