-- ==== Sys2Proof/Safety.lean ====
section
/-! DEFINITION. What a sound state and a good run are, in the terms the statements use: the writer's invariants (R11), the capacity (R42), the
fault register (R15, R120), the form of a response (R49), a canonical checksum (R13, R23), and when a command executes its own rule
(R122). -/

namespace Sys2Proof.Machine

/-- "bits `7 .. bw.cnt` of `bw.cur` are 0" (R11). That `bw.cnt` is 0..7 is its type. -/
def writerWf (w : BitWriter) : Bool := decide (w.cur.toNat < 2 ^ w.cnt.toNat)

/-- `len(bw.done)` is at most `BW_CAP` (R11). -/
def fitsCap (cap : Option Nat) (w : BitWriter) : Bool :=
  match cap with
  | none => true
  | some c => decide (w.done.length ≤ c)

/-- `k` more bytes can be completed on top of `have_` bytes (R42, R60). -/
def hasSpace (cap : Option Nat) (have_ k : Nat) : Bool :=
  match cap with
  | none => true
  | some c => decide (k = 0) || decide (have_ + k ≤ c)

/-- An encoder, which starts from a cleared writer, is sure of room for `k` bytes (R42). -/
def capAtLeast (cap : Option Nat) (k : Nat) : Bool :=
  match cap with
  | none => true
  | some c => decide (k ≤ c)

/-- `fault.code` is 0 while `fault.valid = 0`, and one of the six codes of R120 once it is 1 (R15). -/
def faultRegWf (s : State) : Bool :=
  if s.faultValid then decide (1 ≤ s.faultCode.toNat) && decide (s.faultCode.toNat ≤ 6) else decide (s.faultCode = 0)

/-- The form R49 gives a response: all fields void but `status` when it is not 0, and the void fields of each variant. -/
def responseWf (r : Response) : Bool :=
  if r.status = 0 then
    match r.variant with
    | .none => decide (r.scalar = 0) && r.seg0.isEmpty && r.seg1.isEmpty
    | .scalar => r.seg0.isEmpty && r.seg1.isEmpty
    | .plain => decide (r.scalar = 0) && r.seg1.isEmpty
    | .triple => true
  else decide (r = respStatus r.status)

/-- Every response since reset is either a success or carries the code that the fault register holds (R15, R124). -/
def statusOk (s : State) (r : Response) : Bool :=
  decide (r.status = 0) || (s.faultValid && decide (r.status = s.faultCode))

/-- The invariant of the block: R11 for the writer, R15 for the fault register, R49 and R124 for the responses. -/
def State.Inv (s : State) : Prop :=
  writerWf s.bw = true ∧ fitsCap s.params.bwCap s.bw = true ∧ faultRegWf s = true
    ∧ ∀ r ∈ s.responses, responseWf r = true ∧ statusOk s r = true

/-- Both halves of the checksum are at most 65520 (R13, R23). -/
def adlerCanonical (c : Word32) : Bool := decide (adlerS1 c ≤ 65520) && decide (adlerS2 c ≤ 65520)

/-- "it is *good* when `fault.valid = 0` then" (R150). -/
def goodRun (s : State) : Bool := !s.faultValid

/-- The command passes the common checks of R122, so that its own rule decides what happens: no fault is recorded, and the payload has
the length the command announces. -/
def Ready (i : Instr) (s : State) : Prop := s.faultValid = false ∧ (payload s).length = announcedLength i

/-- The state after a command that is answered with `r` and writes no register (R49): it is consumed, word and payload. -/
def answered (s : State) (r : Response) : State :=
  { s with input := s.input.tail, responses := s.responses ++ [r] }

/-- The state after a command that faults with the code (R123): the fault register is written, the answer is the code alone. -/
def faulted (s : State) (code : BitVec 4) : State :=
  { s with
    faultValid := true
    faultCode := code
    input := s.input.tail
    responses := s.responses ++ [⟨code, .none, 0, [], []⟩] }

/-! ### The emitted formats as bit strings, in stream order (R6), read from sections 6 to 9 of 30_encoding.md and from 42_zero_run_encoder.md -/

/-- A bit string of the spec, such as `"110"`, written with digits. -/
def bitString (digits : List Nat) : List Bool := digits.map (fun d => d == 1)

/-- A Huffman code of `len` bits, its most significant bit first (R6, R32). -/
def msbFirst (code len : Nat) : List Bool := (List.range len).map (fun i => code.testBit (len - 1 - i))

/-- A field of `len` bits, its least significant bit first (R31, R32). -/
def lsbFirst (value len : Nat) : List Bool := (List.range len).map (fun i => value.testBit i)

/-- The stream of a literal byte in the fixed code (R54). -/
def literalStream (x : Byte) : List Bool :=
  if x.toNat ≤ 143 then msbFirst (48 + x.toNat) 8 else msbFirst (400 + (x.toNat - 144)) 9

/-- What aligns a stream of `k` bits (R55, R71): nothing on a byte boundary, else `"0"`, `"00"`, zero bits up to the boundary, and the
bytes `00 00 FF FF`. -/
def storedPad (k : Nat) : List Bool :=
  if k % 8 = 0 then []
  else List.replicate (8 * ((k % 8 + 3 + 7) / 8) - k % 8) false ++ List.replicate 16 false ++ List.replicate 16 true

/-- The fixed block before its pad (R72): `"0"`, `"10"`, the literals, `"0000000"`. -/
def fixedBlockCore (data : List Byte) : List Bool :=
  bitString [0, 1, 0] ++ data.flatMap literalStream ++ bitString [0, 0, 0, 0, 0, 0, 0]

/-- The fixed block of a byte sequence (R72). -/
def fixedBlockStream (data : List Byte) : List Bool := fixedBlockCore data ++ storedPad (fixedBlockCore data).length

/-- The 71 bits of R88: `"0" "01" "10111" "10000" "0111"`, then the 18 lengths. -/
def zrHeaderStream : List Bool :=
  bitString [0, 0, 1, 1, 0, 1, 1, 1, 1, 0, 0, 0, 0, 0, 1, 1, 1]
    ++ bitString [0, 0, 0, 0, 0, 0, 0, 1, 0, 0, 1, 0, 0, 0, 0, 0, 0, 0, 0, 0, 0, 0, 0, 0, 0, 0, 0]
    ++ bitString [0, 0, 0, 0, 0, 0, 0, 0, 0, 0, 0, 0, 1, 1, 0, 0, 0, 0, 1, 1, 0, 0, 0, 0, 0, 1, 0]

/-- `g` code lengths of 0 (R84). -/
def gapStream (g : Nat) : List Bool :=
  if 11 ≤ g then bitString [1, 0] ++ lsbFirst (g - 11) 7 else List.replicate (2 * g) false

/-- The trees (R89). -/
def zrTreeStream (xc : Nat) : List Bool :=
  bitString [1, 1, 0, 1, 0, 1, 1, 1, 1, 1, 1, 1, 1, 0, 0, 1, 0, 1, 0, 1, 1, 1, 1, 1] ++ gapStream (xc - 257)
    ++ bitString [1, 1, 1] ++ gapStream (284 - xc) ++ bitString [0, 1, 0, 1, 0, 0]

/-- `d` of R96: where the trees end. -/
def treesEnd (xc : Nat) : Nat := (zrHeaderStream ++ zrTreeStream xc).length

/-- 1 when the distance bit of the first pair is owed: the bit offset after the literal is odd (R90). -/
def owedUnits (xc : Nat) : Nat := (treesEnd xc + 2) % 2

/-- The pairs that bring the offset after the literal and the half pair to a byte boundary (R90). -/
def loopUnits (xc : Nat) : Nat := (8 - (treesEnd xc + 2 + owedUnits xc) % 8) % 8 / 2

/-- The preamble (R88 to R90): header, trees, `"10"` for the literal, then zero bits. -/
def preambleStream (xc : Nat) : List Bool :=
  zrHeaderStream ++ zrTreeStream xc ++ bitString [1, 0] ++ List.replicate (owedUnits xc + 2 * loopUnits xc) false

/-- `num_excess` (R87). -/
def numExcess (n : Nat) : Nat := (n - 1) % 258

/-- The excess symbol with its extra bits (R81, R87): the dummy 257 for fewer than 3 bytes. -/
def excessSymbol (n : Nat) : LengthCode :=
  if 3 ≤ numExcess n then lengthCodeClosed (numExcess n) else { code := 257, eb := 0, ev := 0 }

/-- The units the alignment absorbs, `o + p` (R94). -/
def absorbedUnits (n : Nat) : Nat := owedUnits (excessSymbol n).code + loopUnits (excessSymbol n).code

/-- `num_repeats` (R91, R96). -/
def middleCount (n : Nat) : Nat := (n - 1 - 258 * absorbedUnits n) / 1032

/-- `q` of R92. -/
def leftUnits (n : Nat) : Nat := (n - 1 - 258 * absorbedUnits n) % 1032 / 258

/-- The excess in the postamble (R92): 0 to 2 literals `"10"`, or `"111"`, the extra bits and the distance bit `"0"`. -/
def excessStream (n : Nat) : List Bool :=
  if numExcess n < 3 then (List.replicate (numExcess n) (bitString [1, 0])).flatten
  else bitString [1, 1, 1] ++ lsbFirst (excessSymbol n).ev (excessSymbol n).eb ++ bitString [0]

/-- The postamble before its pad (R92): the owed bit, the left-over pairs, the excess, `"110"`. -/
def postambleCore (n : Nat) : List Bool :=
  List.replicate (owedUnits (excessSymbol n).code) false ++ List.replicate (2 * leftUnits n) false ++ excessStream n
    ++ bitString [1, 1, 0]

/-- The postamble (R92). -/
def postambleStream (n : Nat) : List Bool := postambleCore n ++ storedPad (postambleCore n).length

/-- The TRIPLE of a run above the threshold (R93). -/
def largeBlock (n : Nat) : EncodedBlock :=
  .triple (packBytes (preambleStream (excessSymbol n).code)) (middleCount n) (packBytes (postambleStream n))

/-- The fixed block of `n` zero bytes, byte by byte (R73). -/
def zeroBlockBytes (n : Nat) : List Byte :=
  if n = 0 then [0x02, 0x00, 0x00, 0x00, 0xFF, 0xFF]
  else [0x62] ++ List.replicate (n - 1) 0x60 ++ [0x00, 0x00, 0x00, 0x00, 0xFF, 0xFF]

end Sys2Proof.Machine
end

