-- ==== Sys2Proof/Certificates/Slice0/Obligations.lean ====
section
/-! DEFINITION. The statements for the provers, each from a numbered rule of spec/ or derived from its sections. `answered s r` is `s` with the
command consumed and the answer `r` appended, `faulted s code` the same with the fault register written (Safety.lean): a conclusion
`exec i s = .next { answered s r with … }` therefore names every register the command writes and says that every other one is kept. -/

open Sys2Proof Sys2Proof.Machine

/-! ### Encoding (30_encoding.md) -/

/-- Decoding the word of a well-formed command gives it back, with every operand (R45, R46, R47). -/
def Obligations.DecodeOfEncode : Prop :=
  ∀ i : Instr, i.WellFormed → decode (encode i) = .ok i

/-- A word the decoder accepts is the word of the command it reads, which is well formed: no word but the encodings is accepted, and no bit
of a word is dropped. -/
def Obligations.EncodeOfDecode : Prop :=
  ∀ (w : CmdWord) (i : Instr), decode w = .ok i → i.WellFormed ∧ encode i = w

/-- The decoder accepts exactly the words R48 calls legal. -/
def Obligations.DecoderAcceptsLegalWords : Prop :=
  ∀ w : CmdWord, (∃ i, decode w = .ok i) ↔ legalWord w = true

/-- The words V70 to V70k (with the four of V70d) decode to the commands they stand for, and V71 to V71f are refused. -/
def Obligations.VectorWordsDecode : Prop :=
  decode 0x00000000000000050030 = .ok (.bwPush 0b101 3)
    ∧ decode 0x00000000000001FF0090 = .ok (.bwPush 0x1FF 9)
    ∧ decode 0x00000000000000060031 = .ok (.bwPushRev 0b110 3)
    ∧ decode 0xFFFFFFFFFFFFFFFF03F0 = .ok (.bwPush 0xFFFFFFFFFFFFFFFF 63)
    ∧ decode 0x00000000000000000002 = .ok .bwAligned
    ∧ decode 0x00000000000000000003 = .ok .bwClear
    ∧ decode 0x00000000000000000004 = .ok .bwExtract
    ∧ decode 0x0000000000000000000A = .ok .adRead
    ∧ decode 0x00000000000000010005 = .ok (.feEncode 1)
    ∧ decode 0x00000000000004090006 = .ok (.zrEncode 1033)
    ∧ decode 0x00000000000F42400006 = .ok (.zrEncode 1000000)
    ∧ decode 0x00000000000000010007 = .ok (.adLoad 1)
    ∧ decode 0x00000000FFF0FFF00007 = .ok (.adLoad 0xFFF0FFF0)
    ∧ decode 0x00000000000000030008 = .ok (.adCombine 3)
    ∧ decode 0xFFFFFFFFFFFFFFFF0009 = .ok (.adZeroRun 18446744073709551615)
    ∧ decode 0x0000000000000000000B = .error .reservedOpcode
    ∧ decode 0x0000000000000001000F = .error .reservedOpcode
    ∧ decode 0x00000000000000010410 = .error .reservedField
    ∧ decode 0x00000000000000000013 = .error .nbitsNotZero
    ∧ decode 0x00000000000000010004 = .error .argNotZero
    ∧ decode 0x00000001000000000007 = .error .argNotZero
    ∧ decode 0x00000000000000050036 = .error .nbitsNotZero

/-! ### Steps, checks, faults, reset (10_state.md, 60_exceptions.md, 70_reset_and_hazards.md) -/

/-- A step whose next host action is a legal command is that command, nothing around it. -/
def Obligations.StepRunsDecodedCommand : Prop :=
  ∀ (s : State) (c : Command) (rest : List HostAction) (i : Instr),
    s.input = .command c :: rest → decode c.word = .ok i → step s = exec i s

/-- The checks of R122 in their order: the first that applies decides. -/
def Obligations.CheckOrder : Prop :=
  ∀ (s : State) (c : Command) (rest : List HostAction), s.input = .command c :: rest →
    step s =
      if s.faultValid then .next (answered s ⟨s.faultCode, .none, 0, [], []⟩)
      else if legalWord c.word = false then .next (faulted s 1)
      else
        match decode c.word with
        | .error _ => .next (faulted s 1)
        | .ok i => if c.data.length ≠ announcedLength i then .next (faulted s 2) else exec i s

/-- R48: any other word faults with code 1, whatever its payload, and changes no other state. -/
def Obligations.IllegalWordFaults : Prop :=
  ∀ (s : State) (c : Command) (rest : List HostAction), s.input = .command c :: rest → s.faultValid = false →
    legalWord c.word = false → step s = .next (faulted s 1)

/-- R41: a payload of the wrong length, on any command, faults with code 2 before any state changes. -/
def Obligations.WrongPayloadFaults : Prop :=
  ∀ (i : Instr) (s : State), s.faultValid = false → (payload s).length ≠ announcedLength i → exec i s = .next (faulted s 2)

/-- R124: a faulted block answers every command, legal or not, with the code it holds; no register changes, and the first code stays. -/
def Obligations.FaultedBlockAnswersCode : Prop :=
  ∀ (s : State) (c : Command) (rest : List HostAction), s.faultValid = true → s.input = .command c :: rest →
    step s = .next { s with input := rest, responses := s.responses ++ [⟨s.faultCode, .none, 0, [], []⟩] }

/-- R125: a faulted block stays faulted, with the code it has and every register as it is, until a reset, and reset loses all state. So no
second fault occurs. -/
def Obligations.OnlyResetLeavesFault : Prop :=
  ∀ s t : State, s.faultValid = true → step s = .next t →
    (t.faultValid = true ∧ t.faultCode = s.faultCode ∧ t.bw = s.bw ∧ t.adler = s.adler)
      ∨ ∃ later, s.input = .reset :: later ∧ t.faultValid = false ∧ t.faultCode = 0 ∧ t.bw = ⟨[], 0x00, 0⟩ ∧ t.adler = 0x00000001

/-- R123, R124: what the writer and the checksum hold in a faulted block cannot be observed. This is why the model may keep them (log
entry 5). -/
def Obligations.FaultedContentsUnobservable : Prop :=
  ∀ (s s' t' : State) (w : BitWriter) (c : Word32), s.faultValid = true → step s = .next s' →
    step { s with bw := w, adler := c } = .next t' →
      t'.responses = s'.responses ∧ t'.faultValid = s'.faultValid ∧ t'.faultCode = s'.faultCode ∧ t'.input = s'.input

/-- The values R22 gives for reset. -/
def Obligations.ResetValues : Prop :=
  State.reset.bw.done = [] ∧ State.reset.bw.cur = 0x00 ∧ State.reset.bw.cnt = 0 ∧ State.reset.adler = 0x00000001
    ∧ State.reset.faultValid = false ∧ State.reset.faultCode = 0 ∧ State.reset.input = [] ∧ State.reset.responses = []
    ∧ aligned State.reset.bw = true

/-- R140: reset takes every register to its value of R22 and drops what is in transit, from any state, a faulted one too. What the host does
afterwards is still to come, and BW_CAP is a parameter, not a register. -/
def Obligations.ResetStep : Prop :=
  ∀ (s : State) (later : List HostAction), s.input = .reset :: later →
    step s = .next ⟨⟨[], 0x00, 0⟩, 0x00000001, false, 0, s.params, later, []⟩

/-- R38, R49, R151: every command, legal or not, in any state, is consumed and answered by exactly one response, whose status is the fault
code when a fault is recorded and else 0; the responses come in order. -/
def Obligations.OneResponsePerCommand : Prop :=
  ∀ (s : State) (c : Command) (rest : List HostAction), s.input = .command c :: rest →
    ∃ t r, step s = .next t ∧ t.input = rest ∧ t.responses = s.responses ++ [r] ∧ responseWf r = true
      ∧ r.status = (if t.faultValid then t.faultCode else 0)

/-- No step stops the block: it never ends in the host's `fault` or `refused` outcome (R150: "the block never halts"). -/
def Obligations.EveryStepAnswers : Prop :=
  ∀ s : State, ∃ t, step s = .next t

/-- Which registers each command may write (R11, R13, R15): the parameters never change; one command is consumed and one response
appended; only AD_LOAD, AD_COMBINE and AD_ZERO_RUN write `adler`; only the pushes, BW_CLEAR and the encoders write the writer; the fault
register changes only when it was clear. That a command which faults keeps the writer and the checksum is the model's choice for codes 3 to 6
(log entry 5). -/
def Obligations.CommandFrame : Prop :=
  ∀ (i : Instr) (s t : State), exec i s = .next t →
    t.params = s.params ∧ t.input = s.input.tail ∧ (∃ r, t.responses = s.responses ++ [r])
      ∧ (t.adler = s.adler ∨ (∃ c, i = .adLoad c) ∨ (∃ n, i = .adCombine n) ∨ (∃ n, i = .adZeroRun n))
      ∧ (t.bw = s.bw ∨ (∃ v n, i = .bwPush v n) ∨ (∃ v n, i = .bwPushRev v n) ∨ i = .bwClear ∨ (∃ n, i = .feEncode n)
          ∨ (∃ n, i = .zrEncode n))
      ∧ (s.faultValid = true → t.faultValid = true ∧ t.faultCode = s.faultCode)
      ∧ (t.faultValid = true → s.faultValid = false → t.bw = s.bw ∧ t.adler = s.adler)

/-- The invariant of the block (R11, R15, R49, R124) is kept by every step, whatever the host does. -/
def Obligations.StepKeepsInv : Prop :=
  ∀ s t : State, s.Inv → step s = .next t → t.Inv

/-- The state after reset meets the invariant, for every capacity. -/
def Obligations.ResetHasInv : Prop :=
  State.reset.Inv ∧ ∀ p : Params, (State.resetWith p).Inv

/-- R94, R95, R120: `ZrUnderflow` and `ZrExcessRange` are unreachable: no step records either code. -/
def Obligations.ZeroRunChecksNeverFail : Prop :=
  ∀ s t : State, step s = .next t → s.faultCode ≠ 5 → s.faultCode ≠ 6 → t.faultCode ≠ 5 ∧ t.faultCode ≠ 6

/-- R141: `BW_CLEAR; AD_LOAD 1` brings an unfaulted block to the registers of reset. -/
def Obligations.ClearAndLoadIsReset : Prop :=
  ∀ (s : State) (later : List HostAction), s.faultValid = false → s.faultCode = 0 →
    s.input = hostActions [commandOf .bwClear [], commandOf (.adLoad 1) []] ++ later →
    ∃ t, Host.Core.run core 2 s = .next t ∧ t.bw = State.reset.bw ∧ t.adler = State.reset.adler
      ∧ t.faultValid = State.reset.faultValid ∧ t.faultCode = State.reset.faultCode ∧ t.params = s.params ∧ t.input = later

/-! ### bit_writer (40_bit_writer.md) -/

/-- R60: `PutBit` appends one bit to the stream and keeps the writer's invariants; only a byte that does not fit faults. -/
def Obligations.PutBitAppends : Prop :=
  ∀ (cap : Option Nat) (b : Bool) (w : BitWriter), writerWf w = true →
    if w.cnt = 7 ∧ hasSpace cap w.done.length 1 = false then putBit cap b w = .error .bwOverflow
    else ∃ w', putBit cap b w = .ok w' ∧ streamOf w' = streamOf w ++ [b] ∧ writerWf w' = true

/-- R61: BW_PUSH, `op = 0x0`, appends the low `nbits` bits of the value, bit 0 first, and answers NONE; `aligned` becomes
`(old cnt + nbits) mod 8 = 0`; `adler`, the fault register and the capacity are kept; the one fault is BwOverflow, when the bytes it would
complete do not fit. -/
def Obligations.BwPushAppendsField : Prop :=
  ∀ (value : Word64) (nbits : Nat) (s : State), writerWf s.bw = true → Ready (.bwPush value nbits) s →
    (hasSpace s.params.bwCap s.bw.done.length ((s.bw.cnt.toNat + nbits) / 8) = true →
      ∃ w, exec (.bwPush value nbits) s = .next { answered s ⟨0, .none, 0, [], []⟩ with bw := w }
        ∧ streamOf w = streamOf s.bw ++ (List.range nbits).map (fun i => value.getLsbD i)
        ∧ writerWf w = true ∧ aligned w = decide ((s.bw.cnt.toNat + nbits) % 8 = 0))
      ∧ (hasSpace s.params.bwCap s.bw.done.length ((s.bw.cnt.toNat + nbits) / 8) = false →
        ∃ t, exec (.bwPush value nbits) s = .next t ∧ t.faultValid = true ∧ t.faultCode = 4
          ∧ t.responses = s.responses ++ [⟨4, .none, 0, [], []⟩])
      ∧ (nbits < 64 → decode (value ++ (0 : BitVec 6) ++ BitVec.ofNat 6 nbits ++ (0x0 : BitVec 4)) = .ok (.bwPush value nbits))

/-- R62: BW_PUSH_REV, `op = 0x1`, appends the same bits, bit `nbits - 1` first; the rest is as in BwPushAppendsField. -/
def Obligations.BwPushRevAppendsField : Prop :=
  ∀ (value : Word64) (nbits : Nat) (s : State), writerWf s.bw = true → Ready (.bwPushRev value nbits) s →
    (hasSpace s.params.bwCap s.bw.done.length ((s.bw.cnt.toNat + nbits) / 8) = true →
      ∃ w, exec (.bwPushRev value nbits) s = .next { answered s ⟨0, .none, 0, [], []⟩ with bw := w }
        ∧ streamOf w = streamOf s.bw ++ (List.range nbits).map (fun i => value.getLsbD (nbits - 1 - i))
        ∧ writerWf w = true ∧ aligned w = decide ((s.bw.cnt.toNat + nbits) % 8 = 0))
      ∧ (hasSpace s.params.bwCap s.bw.done.length ((s.bw.cnt.toNat + nbits) / 8) = false →
        ∃ t, exec (.bwPushRev value nbits) s = .next t ∧ t.faultValid = true ∧ t.faultCode = 4
          ∧ t.responses = s.responses ++ [⟨4, .none, 0, [], []⟩])
      ∧ (nbits < 64 → decode (value ++ (0 : BitVec 6) ++ BitVec.ofNat 6 nbits ++ (0x1 : BitVec 4)) = .ok (.bwPushRev value nbits))

/-- R62: "Equivalently `PushRev(value, nbits) = Push(rev_nbits(value mod 2^nbits), nbits)`". -/
def Obligations.PushRevIsPushOfReversed : Prop :=
  ∀ (cap : Option Nat) (value nbits : Nat) (w : BitWriter),
    pushRev cap value nbits w = push cap (revBits nbits (value % 2 ^ nbits)) nbits w

/-- R42, R60: a push that would complete more bytes than a finite BW_CAP holds faults with code 4 instead. That the writer keeps the value
it had is the model's choice (log entry 5). -/
def Obligations.PushOverflowFaults : Prop :=
  ∀ (value : Word64) (nbits : Nat) (s : State), writerWf s.bw = true → s.faultValid = false → (payload s).length = 0 →
    hasSpace s.params.bwCap s.bw.done.length ((s.bw.cnt.toNat + nbits) / 8) = false →
    exec (.bwPush value nbits) s = .next (faulted s 4) ∧ exec (.bwPushRev value nbits) s = .next (faulted s 4)

/-- R63: BW_ALIGNED, `op = 0x2`, answers 1 iff the partial byte is empty, and changes no register. -/
def Obligations.BwAlignedAnswers : Prop :=
  ∀ s : State, Ready .bwAligned s →
    exec .bwAligned s = .next (answered s ⟨0, .scalar, if s.bw.cnt = 0 then 1 else 0, [], []⟩)
      ∧ decode 0x00000000000000000002 = .ok .bwAligned

/-- R64: BW_CLEAR, `op = 0x3`, empties the writer and touches nothing else. -/
def Obligations.BwClearEmpties : Prop :=
  ∀ s : State, Ready .bwClear s →
    exec .bwClear s = .next { answered s ⟨0, .none, 0, [], []⟩ with bw := ⟨[], 0, 0⟩ }
      ∧ decode 0x00000000000000000003 = .ok .bwClear

/-- R65: BW_EXTRACT, `op = 0x4`, returns the completed bytes and changes nothing when aligned, so that a second extraction returns the same
bytes; when not, it faults with code 3 and returns no bytes. That the writer and the checksum then keep their values, which R123 leaves open, is the
model's choice (log entry 5). -/
def Obligations.BwExtractReturnsDone : Prop :=
  ∀ s : State, Ready .bwExtract s →
    (s.bw.cnt = 0 → exec .bwExtract s = .next (answered s ⟨0, .plain, 0, s.bw.done, []⟩))
      ∧ (s.bw.cnt ≠ 0 → exec .bwExtract s = .next (faulted s 3))
      ∧ decode 0x00000000000000000004 = .ok .bwExtract

/-- R66 laws 1 and 2: a push lengthens the stream by `nbits`, and splits at any point, in both orders. -/
def Obligations.PushSplits : Prop :=
  ∀ (v a b : Nat) (w : BitWriter), writerWf w = true →
    (∃ w', push none v a w = .ok w' ∧ 8 * w'.done.length + w'.cnt.toNat = 8 * w.done.length + w.cnt.toNat + a)
      ∧ push none v (a + b) w = (push none (v % 2 ^ a) a w).bind (push none (v % 2 ^ (a + b) / 2 ^ a) b)
      ∧ pushRev none v (a + b) w = (pushRev none (v % 2 ^ (a + b) / 2 ^ b) a w).bind (pushRev none (v % 2 ^ b) b)

/-- R66 laws 3 and 4: from an aligned state a push of 8 bits appends the byte, of 16 bits the low byte and then the high byte, and a
reversed push of 8 bits the reversed byte. -/
def Obligations.AlignedPushAppendsBytes : Prop :=
  ∀ (v : Nat) (done : List Byte),
    push none v 8 ⟨done, 0, 0⟩ = .ok ⟨done ++ [BitVec.ofNat 8 v], 0, 0⟩
      ∧ push none v 16 ⟨done, 0, 0⟩ = .ok ⟨done ++ [BitVec.ofNat 8 v, BitVec.ofNat 8 (v / 256)], 0, 0⟩
      ∧ pushRev none v 8 ⟨done, 0, 0⟩ = .ok ⟨done ++ [BitVec.ofNat 8 (revBits 8 (v % 256))], 0, 0⟩

/-- R66 laws 5 and 6, R31: the state after pushes is a function of the concatenated bits alone, and from a cleared writer `8k` bits
extract to `k` bytes, stream bit `j` being bit `j mod 8` of byte `j div 8`. -/
def Obligations.PushesPackTheStream : Prop :=
  ∀ xs : List Bool,
    (∀ ys zs : List Bool, xs = ys ++ zs → (putBits none ys BitWriter.empty).bind (putBits none zs) = putBits none xs BitWriter.empty)
      ∧ ∀ k, xs.length = 8 * k → ∃ bytes, (putBits none xs BitWriter.empty).bind extract = .ok bytes ∧ bytes.length = k
          ∧ ∀ j, j < 8 * k → (bytes.getD (j / 8) 0).getLsbD (j % 8) = xs.getD j false

/-- R67: the byte-wise form of `Push` is equivalent to the bit-wise one. -/
def Obligations.BytewisePushAgrees : Prop :=
  ∀ (value nbits : Nat) (w : BitWriter), writerWf w = true → push none value nbits w = .ok (pushBytewise value nbits w)

/-! ### deflate_fixed_encoder (41_fixed_block_encoder.md) -/

/-- R71: with `c` bits pending, `c ≠ 0`, AlignStored appends `8*ceil((c+3)/8) - c` zero bits and the bytes `00 00 FF FF`, and ends aligned;
when aligned it does nothing. -/
def Obligations.AlignStoredAppendsStoredBlock : Prop :=
  ∀ w : BitWriter, writerWf w = true →
    (w.cnt = 0 → alignStored none w = .ok w)
      ∧ (w.cnt ≠ 0 → ∃ w', alignStored none w = .ok w'
          ∧ streamOf w' = streamOf w ++ List.replicate (8 * ((w.cnt.toNat + 3 + 7) / 8) - w.cnt.toNat) false
              ++ bitsOf [0x00, 0x00, 0xFF, 0xFF]
          ∧ w'.cnt = 0 ∧ w'.done.length = w.done.length + (w.cnt.toNat + 3 + 7) / 8 + 4)

/-- R72: FE_ENCODE answers PLAIN with the packing of `"0"`, `"10"`, the literal codes, `"0000000"` and the stored pad, leaves the writer cleared
and touches nothing else, wherever the block fits the buffer. -/
def Obligations.FeEncodeAnswersFixedBlock : Prop :=
  ∀ (len : Nat) (s : State), Ready (.feEncode len) s →
    capAtLeast s.params.bwCap ((fixedBlockStream (payload s)).length / 8) = true →
    exec (.feEncode len) s
      = .next { answered s ⟨0, .plain, 0, packBytes (fixedBlockStream (payload s)), []⟩ with bw := ⟨[], 0, 0⟩ }

/-- R42, R60: a fixed block that does not fit a finite BW_CAP faults with code 4. That the other registers keep their values is the model's
choice (log entry 5). -/
def Obligations.FeEncodeOverflowFaults : Prop :=
  ∀ (len : Nat) (s : State), Ready (.feEncode len) s →
    capAtLeast s.params.bwCap ((fixedBlockStream (payload s)).length / 8) = false → exec (.feEncode len) s = .next (faulted s 4)

/-- R73: the bits pushed before the pad, the length of a fixed block, and the bytes of the block of `n` zero bytes. -/
def Obligations.FixedBlockSize : Prop :=
  (∀ (data : List Byte) (w : BitWriter), ∃ s T, fixedEncode none data w = .ok (s, ⟨[], 0, 0⟩)
      ∧ T = 10 + 8 * data.countP (fun x => decide (x.toNat ≤ 143)) + 9 * data.countP (fun x => decide (144 ≤ x.toNat))
      ∧ T = (fixedBlockCore data).length
      ∧ s.length = if T % 8 = 0 then T / 8 else (T + 3 + 7) / 8 + 4)
    ∧ ∀ (n : Nat) (w : BitWriter), fixedEncode none (zeros n) w = .ok (zeroBlockBytes n, ⟨[], 0, 0⟩)
      ∧ (zeroBlockBytes n).length = n + 6

/-- R42: the buffer FE_ENCODE needs is known in advance: with room for `ceil((9*len + 13) / 8) + 4` bytes it completes, whatever the payload of
`len` bytes, with an answer no longer than that and the writer cleared. -/
def Obligations.FixedBlockFits : Prop :=
  ∀ (len : Nat) (s : State), Ready (.feEncode len) s → capAtLeast s.params.bwCap ((9 * len + 13 + 7) / 8 + 4) = true →
    ∃ b, exec (.feEncode len) s = .next { answered s ⟨0, .plain, 0, b, []⟩ with bw := ⟨[], 0, 0⟩ }
      ∧ b.length ≤ (9 * len + 13 + 7) / 8 + 4

/-- R74, in the terms of the model's own decoder: `decodeBlocks` reads what FE_ENCODE answers as a sequence of complete non-final DEFLATE blocks that
expands to exactly the payload. That decoder rests on the format facts and the choices of log entry 12. -/
def Obligations.FixedBlockDecodes : Prop :=
  ∀ (len : Nat) (s : State), Ready (.feEncode len) s → s.params.bwCap = none →
    ∃ t b, exec (.feEncode len) s = .next t ∧ t.responses = s.responses ++ [⟨0, .plain, 0, b, []⟩]
      ∧ decodeBlocks b = some (payload s)

/-- R12, R142: an encoder's answer does not depend on what the writer held, and the writer is left cleared. -/
def Obligations.EncodersClobberWriter : Prop :=
  ∀ (i : Instr) (s t : State) (w : BitWriter), ((∃ len, i = .feEncode len) ∨ (∃ n, i = .zrEncode n)) →
    exec i s = .next t → t.faultValid = false → t.bw = ⟨[], 0, 0⟩ ∧ exec i { s with bw := w } = .next t

/-! ### deflate_zero_run_encoder (42_zero_run_encoder.md) -/

/-- R80, R86: up to 1032, ZR_ENCODE answers PLAIN with the fixed block of `n` zero bytes, `n + 6` bytes. -/
def Obligations.ZrEncodeSmallRun : Prop :=
  ∀ (n : Nat) (s : State), Ready (.zrEncode n) s → n ≤ 1032 → capAtLeast s.params.bwCap (n + 6) = true →
    exec (.zrEncode n) s = .next { answered s ⟨0, .plain, 0, zeroBlockBytes n, []⟩ with bw := ⟨[], 0, 0⟩ }
      ∧ (zeroBlockBytes n).length = n + 6

/-- R87 to R93: above 1032, ZR_ENCODE answers TRIPLE with the preamble, the middle count and the postamble of the rules, leaves the writer
cleared and touches nothing else, wherever the preamble, the longer of the two parts, fits the buffer. -/
def Obligations.ZrEncodeLargeRun : Prop :=
  ∀ (n : Nat) (s : State), Ready (.zrEncode n) s → 1032 < n →
    capAtLeast s.params.bwCap ((preambleStream (excessSymbol n).code).length / 8) = true →
    exec (.zrEncode n) s
      = .next { answered s ⟨0, .triple, BitVec.ofNat 64 (middleCount n), packBytes (preambleStream (excessSymbol n).code),
                  packBytes (postambleStream n)⟩ with bw := ⟨[], 0, 0⟩ }

/-- R42, R60: ZR_ENCODE with too small a finite BW_CAP faults with code 4: for the small path the whole block must fit, for the large path
the preamble, the longer of the two parts. That the other registers keep their values is the model's choice (log entry 5). -/
def Obligations.ZrEncodeOverflowFaults : Prop :=
  ∀ (n : Nat) (s : State), Ready (.zrEncode n) s →
    (n ≤ 1032 → capAtLeast s.params.bwCap (n + 6) = false → exec (.zrEncode n) s = .next (faulted s 4))
      ∧ (1032 < n → capAtLeast s.params.bwCap ((preambleStream (excessSymbol n).code).length / 8) = false →
          exec (.zrEncode n) s = .next (faulted s 4))

/-- R94, R96: the sizes of the large path and its accounting identity. -/
def Obligations.ZeroRunSizes : Prop :=
  ∀ n, 1032 < n → ∃ p q,
    zeroRunEncode none n BitWriter.empty = .ok (.triple p (middleCount n) q, BitWriter.empty)
      ∧ (p.length = 15 ∨ p.length = 16 ∨ p.length = 17)
      ∧ (q.length = 1 ∨ q.length = 2 ∨ q.length = 5 ∨ q.length = 6 ∨ q.length = 7)
      ∧ 16 ≤ p.length + q.length ∧ p.length + q.length ≤ 24
      ∧ absorbedUnits n ≤ 4 ∧ leftUnits n ≤ 3
      ∧ n = 1 + 258 * (absorbedUnits n + 4 * middleCount n + leftUnits n) + numExcess n

/-- The rows of the table of R96: `xc`, the gaps, `d`, `o`, `p`, the preamble's length. -/
def preambleRows : List (Nat × Nat × Nat × Nat × Nat × Nat × Nat) :=
  [(257, 0, 27, 113, 1, 2, 15), (258, 1, 26, 115, 1, 1, 15), (259, 2, 25, 117, 1, 0, 15), (260, 3, 24, 119, 1, 3, 16),
    (261, 4, 23, 121, 1, 2, 16), (262, 5, 22, 123, 1, 1, 16), (263, 6, 21, 125, 1, 0, 16)]
    ++ [(264, 7, 20, 127, 1, 3, 17), (265, 8, 19, 129, 1, 2, 17), (266, 9, 18, 131, 1, 1, 17), (267, 10, 17, 133, 1, 0, 17),
    (268, 11, 16, 122, 0, 2, 16), (269, 12, 15, 122, 0, 2, 16), (270, 13, 14, 122, 0, 2, 16), (271, 14, 13, 122, 0, 2, 16)]
    ++ [(272, 15, 12, 122, 0, 2, 16), (273, 16, 11, 122, 0, 2, 16), (274, 17, 10, 133, 1, 0, 17), (275, 18, 9, 131, 1, 1, 17),
    (276, 19, 8, 129, 1, 2, 17), (277, 20, 7, 127, 1, 3, 17), (278, 21, 6, 125, 1, 0, 16), (279, 22, 5, 123, 1, 1, 16)]
    ++ [(280, 23, 4, 121, 1, 2, 16), (281, 24, 3, 119, 1, 3, 16), (282, 25, 2, 117, 1, 0, 15), (283, 26, 1, 115, 1, 1, 15),
    (284, 27, 0, 113, 1, 2, 15)]

/-- The table of R96 for the preamble the encoder really emits: every large run meets the row of its excess symbol. -/
def Obligations.PreambleTable : Prop :=
  ∀ n, 1032 < n → ∃ row ∈ preambleRows, ∃ p z q,
    zeroRunEncode none n BitWriter.empty = .ok (.triple p z q, BitWriter.empty)
      ∧ row = ((excessSymbol n).code, (excessSymbol n).code - 257, 284 - (excessSymbol n).code, treesEnd (excessSymbol n).code,
          owedUnits (excessSymbol n).code, loopUnits (excessSymbol n).code, p.length)
      ∧ z = (n - 1 - 258 * (owedUnits (excessSymbol n).code + loopUnits (excessSymbol n).code)) / 1032

/-- R81: the table and the closed form agree on 3..258; outside it LengthCode faults. -/
def Obligations.LengthCodeTable : Prop :=
  ∀ L, (3 ≤ L ∧ L ≤ 258 → lengthCode L = .ok (lengthCodeClosed L)) ∧ (L < 3 ∨ 258 < L → lengthCode L = .error .zrExcessRange)

/-- R58, R83, R85, R97: the codes in the tables of the zero-run block are the canonical codes of their lengths: the code-length code as it is sent,
the literal/length code for every excess symbol, and the distance code. The first two are complete; the third is the single code of length 1
that R97 permits. -/
def Obligations.ZeroRunCodesCanonical : Prop :=
  clLengthsSent = (clOrder.take 18).map (codeLengthIn clTable)
    ∧ completeCode (clLengthsBySymbol clLengthsSent) = true
    ∧ List.Perm (canonicalCode (clLengthsBySymbol clLengthsSent)) clTable
    ∧ (∀ xc, 257 ≤ xc → xc ≤ 284 →
        completeCode ((List.range 286).map (codeLengthIn (llTable xc))) = true
          ∧ List.Perm (canonicalCode ((List.range 286).map (codeLengthIn (llTable xc)))) (llTable xc)
          ∧ llTable xc = [⟨285, 1, 0b0⟩, ⟨0, 2, 0b10⟩, ⟨256, 3, 0b110⟩, ⟨xc, 3, 0b111⟩])
    ∧ clTable = [⟨0, 2, 0b00⟩, ⟨1, 2, 0b01⟩, ⟨18, 2, 0b10⟩, ⟨2, 3, 0b110⟩, ⟨3, 3, 0b111⟩]
    ∧ (List.range 2).map (codeLengthIn distTable) = [1, 0]
    ∧ canonicalCode [1, 0] = distTable
    ∧ distanceCodeOk [1, 0] = true

/-- R94, R97, R18, in the terms of the model's own decoder: `decodeBlocks` reads what ZR_ENCODE answers, flattened, as a sequence of complete
non-final DEFLATE blocks that expands to exactly `n` zero bytes. That decoder rests on the format facts and the choices of log entry 12. -/
def Obligations.ZeroRunDecodes : Prop :=
  ∀ (n : Nat) (s : State), n < 2 ^ 64 → Ready (.zrEncode n) s → capAtLeast s.params.bwCap 1038 = true →
    ∃ t r e, exec (.zrEncode n) s = .next t ∧ t.responses = s.responses ++ [r] ∧ r.status = 0 ∧ blockOf r = some e
      ∧ decodeBlocks (flatten e) = some (zeros n)

/-! ### adler32_accumulator (43_adler32_accumulator.md) -/

/-- R102: AD_LOAD, `op = 0x7` with the upper half of `arg` 0, writes any 32-bit value and answers it. -/
def Obligations.AdLoadWrites : Prop :=
  ∀ (c : Word32) (s : State), Ready (.adLoad c) s →
    exec (.adLoad c) s = .next { answered s ⟨0, .scalar, c.setWidth 64, [], []⟩ with adler := c }
      ∧ ∀ hi lo : BitVec 32, decode (hi ++ lo ++ (0 : BitVec 6) ++ (0 : BitVec 6) ++ (0x7 : BitVec 4))
          = if hi = 0 then .ok (.adLoad lo) else .error .argNotZero

/-- R100, R103: AD_COMBINE, `op = 0x8`, runs the recurrence over the payload on the two halves, and answers the new checksum. -/
def Obligations.AdCombineFolds : Prop :=
  ∀ (len : Nat) (s : State), Ready (.adCombine len) s →
    ∃ c : Word32, exec (.adCombine len) s = .next { answered s ⟨0, .scalar, c.setWidth 64, [], []⟩ with adler := c }
      ∧ (c.toNat % 65536, c.toNat / 65536)
          = (payload s).foldl (fun p b => ((p.1 + b.toNat) % 65521, (p.2 + (p.1 + b.toNat) % 65521) % 65521))
              (s.adler.toNat % 65536, s.adler.toNat / 65536)
      ∧ (len < 2 ^ 64 → decode (BitVec.ofNat 64 len ++ (0 : BitVec 6) ++ (0 : BitVec 6) ++ (0x8 : BitVec 4)) = .ok (.adCombine len))

/-- R101, R104: AD_ZERO_RUN, `op = 0x9`, computes `s2' = (s2 + n*s1) mod 65521`, `s1' = s1`, over the exact product, and answers the new checksum. -/
def Obligations.AdZeroRunClosedForm : Prop :=
  ∀ (n : Nat) (s : State), Ready (.adZeroRun n) s →
    ∃ c : Word32, exec (.adZeroRun n) s = .next { answered s ⟨0, .scalar, c.setWidth 64, [], []⟩ with adler := c }
      ∧ c.toNat % 65536 = s.adler.toNat % 65536
      ∧ c.toNat / 65536 = (s.adler.toNat / 65536 + n * (s.adler.toNat % 65536)) % 65521
      ∧ (n < 2 ^ 64 → decode (BitVec.ofNat 64 n ++ (0 : BitVec 6) ++ (0 : BitVec 6) ++ (0x9 : BitVec 4)) = .ok (.adZeroRun n))

/-- R105: AD_READ, `op = 0xA`, answers the checksum and changes no register. -/
def Obligations.AdReadAnswers : Prop :=
  ∀ s : State, Ready .adRead s →
    exec .adRead s = .next (answered s ⟨0, .scalar, s.adler.setWidth 64, [], []⟩)
      ∧ decode 0x0000000000000000000A = .ok .adRead

/-- R106 laws 1, 2 and 4, R103: a zero run is a payload of zero bytes, runs add up, payloads split, canonical in gives canonical out. -/
def Obligations.AdlerLaws : Prop :=
  ∀ c : Word32, adlerCanonical c = true →
    (∀ n, adlerZeroRun c n = adlerCombine c (zeros n))
      ∧ (∀ a b, adlerZeroRun (adlerZeroRun c a) b = adlerZeroRun c (a + b))
      ∧ (∀ x y, adlerCombine (adlerCombine c x) y = adlerCombine c (x ++ y))
      ∧ (∀ n, adlerCanonical (adlerZeroRun c n) = true) ∧ (∀ x, adlerCanonical (adlerCombine c x) = true)

/-- R100, R101, R106 for any checksum: empty data changes nothing, the zero-run update may reduce `n` first, and on `n ≥ 1` zero bytes the two
updates agree in the `s2` half. -/
def Obligations.AdlerTotalOnAnyChecksum : Prop :=
  ∀ c : Word32, adlerCombine c [] = c
    ∧ (∀ n, adlerZeroRun c n = adlerZeroRun c (n % 65521))
    ∧ (∀ n, 1 ≤ n → adlerS2 (adlerZeroRun c n) = adlerS2 (adlerCombine c (zeros n)))
    ∧ (∀ b bs, adlerCanonical (adlerCombine c (b :: bs)) = true)

/-- R23: with no AD_LOAD of a value outside the legal range, the checksum stays canonical. -/
def Obligations.StepKeepsCanonicalAdler : Prop :=
  ∀ s t : State, adlerCanonical s.adler = true → step s = .next t →
    (∀ c rest v, s.input = .command c :: rest → decode c.word = .ok (.adLoad v) → adlerCanonical v = true) →
    adlerCanonical t.adler = true

/-! ### The host's stream (44_host_zlibstream.md) -/

/-- R115, R52: FINAL_BLOCK gives `01 00 00 FF FF`. -/
def Obligations.FinalBlockBytes : Prop :=
  ∀ (s : State) (later : List HostAction), s.faultValid = false → capAtLeast s.params.bwCap 5 = true →
    s.input = hostActions finalBlockCommands ++ later →
    ∃ t, Host.Core.run core 7 s = .next t ∧ t.faultValid = false ∧ t.input = later
      ∧ t.responses.getLast? = some ⟨0, .plain, 0, [0x01, 0x00, 0x00, 0xFF, 0xFF], []⟩

/-- R52, R71: the commands of ALIGN_STORED do to the writer what `AlignStored()` does. -/
def Obligations.AlignStoredMacro : Prop :=
  ∀ (s : State) (later : List HostAction), s.faultValid = false → writerWf s.bw = true → s.params.bwCap = none →
    s.input = hostActions (alignStoredCommands s.bw.cnt.toNat) ++ later →
    ∃ t, Host.Core.run core (alignStoredCommands s.bw.cnt.toNat).length s = .next t ∧ t.faultValid = false ∧ t.input = later
      ∧ alignStored none s.bw = .ok t.bw

/-- R113, R114, R117 "Length accuracy", and R114 on chunks: `total_length` is the length of `produce`, and how the zero bytes are cut into
chunks changes no byte. -/
def Obligations.LengthAccuracy : Prop :=
  ∀ (blocks : List EncodedBlock) (c : Word32),
    (produce blocks c).length = totalLength blocks
      ∧ ∀ chunk, 0 < chunk → (produceChunks chunk blocks c).flatten = produce blocks c

/-- R117, in the terms of the model's own decoder: for any mix of `push` and `push_zeroes`, running the commands on an unfaulted block with
`adler` = 1 and an unbounded buffer, after reset or after an earlier stream (R141), appends answers that assemble to a zlib stream which
`decodeZlib` decodes to the concatenated data and whose length is `total_length`. That decoder, which checks the Adler-32 trailer, rests on the
format facts and the choices of log entry 12. -/
def Obligations.ZlibStreamRoundTrip : Prop :=
  ∀ (calls : List ZsCall) (s : State) (later : List HostAction), (∀ x ∈ calls, callInRange x = true) → s.faultValid = false → s.adler = 1 →
    s.params.bwCap = none → s.input = hostActions (streamCommands calls) ++ later →
    ∃ t answers, Host.Core.run core (streamCommands calls).length s = .next t ∧ goodRun t = true ∧ t.input = later
      ∧ t.responses = s.responses ++ answers
      ∧ decodeZlib (assembled answers) = some (calls.flatMap callData)
      ∧ (assembled answers).length = totalLength (answers.filterMap blockOf)

/-- R52: `combine(c, data)` and `combine_zero_run(c, n)`, issued to any unfaulted block, give the values of the two functions: `scalar[31:0]` of the
last answer is `AdlerCombine(c, data)` and `AdlerZeroRun(c, n)`. -/
def Obligations.CombineValues : Prop :=
  ∀ (c : Word32) (s : State), s.faultValid = false →
    (∀ data : List Byte, data.length < 2 ^ 64 → combineValue c data s = some (adlerCombine c data))
      ∧ ∀ n, n < 2 ^ 64 → combineZeroRunValue c n s = some (adlerZeroRun c n)
end

