-- ==== Sys2Proof/Laws/State.lean ====
section
/-! SUPPORT. One lemma per field per update of State, each true by rfl, so that no later proof unfolds a record update. -/

namespace Sys2Proof.Machine

variable (s : State) (w : BitWriter) (c : Word32) (code : BitVec 4) (r : Response) (later : List HostAction) (p : Params)

@[simp] theorem setBw_bw : (setBw s w).bw = w := rfl
@[simp] theorem setBw_adler : (setBw s w).adler = s.adler := rfl
@[simp] theorem setBw_faultValid : (setBw s w).faultValid = s.faultValid := rfl
@[simp] theorem setBw_faultCode : (setBw s w).faultCode = s.faultCode := rfl
@[simp] theorem setBw_params : (setBw s w).params = s.params := rfl
@[simp] theorem setBw_input : (setBw s w).input = s.input := rfl
@[simp] theorem setBw_responses : (setBw s w).responses = s.responses := rfl

@[simp] theorem setAdler_bw : (setAdler s c).bw = s.bw := rfl
@[simp] theorem setAdler_adler : (setAdler s c).adler = c := rfl
@[simp] theorem setAdler_faultValid : (setAdler s c).faultValid = s.faultValid := rfl
@[simp] theorem setAdler_faultCode : (setAdler s c).faultCode = s.faultCode := rfl
@[simp] theorem setAdler_params : (setAdler s c).params = s.params := rfl
@[simp] theorem setAdler_input : (setAdler s c).input = s.input := rfl
@[simp] theorem setAdler_responses : (setAdler s c).responses = s.responses := rfl

@[simp] theorem latchFault_bw : (latchFault s code).bw = s.bw := rfl
@[simp] theorem latchFault_adler : (latchFault s code).adler = s.adler := rfl
@[simp] theorem latchFault_faultValid : (latchFault s code).faultValid = true := rfl
@[simp] theorem latchFault_faultCode : (latchFault s code).faultCode = code := rfl
@[simp] theorem latchFault_params : (latchFault s code).params = s.params := rfl
@[simp] theorem latchFault_input : (latchFault s code).input = s.input := rfl
@[simp] theorem latchFault_responses : (latchFault s code).responses = s.responses := rfl

@[simp] theorem answer_bw : (answer s r).bw = s.bw := rfl
@[simp] theorem answer_adler : (answer s r).adler = s.adler := rfl
@[simp] theorem answer_faultValid : (answer s r).faultValid = s.faultValid := rfl
@[simp] theorem answer_faultCode : (answer s r).faultCode = s.faultCode := rfl
@[simp] theorem answer_params : (answer s r).params = s.params := rfl
@[simp] theorem answer_input : (answer s r).input = s.input.tail := rfl
@[simp] theorem answer_responses : (answer s r).responses = s.responses ++ [r] := rfl

@[simp] theorem applyReset_bw : (applyReset later s).bw = BitWriter.empty := rfl
@[simp] theorem applyReset_adler : (applyReset later s).adler = 1 := rfl
@[simp] theorem applyReset_faultValid : (applyReset later s).faultValid = false := rfl
@[simp] theorem applyReset_faultCode : (applyReset later s).faultCode = 0 := rfl
@[simp] theorem applyReset_params : (applyReset later s).params = s.params := rfl
@[simp] theorem applyReset_input : (applyReset later s).input = later := rfl
@[simp] theorem applyReset_responses : (applyReset later s).responses = [] := rfl

@[simp] theorem empty_done : BitWriter.empty.done = [] := rfl
@[simp] theorem empty_cur : BitWriter.empty.cur = 0 := rfl
@[simp] theorem empty_cnt : BitWriter.empty.cnt = 0 := rfl
@[simp] theorem clearWriter_eq : clearWriter w = BitWriter.empty := rfl

theorem answer_eq_answered : answer s r = answered s r := rfl
theorem raiseFault_eq_faulted (e : FaultCode) : raiseFault e s = faulted s (faultBits e) := rfl
theorem answerFaulted_eq_answered : answerFaulted s = answered s (respStatus s.faultCode) := rfl

end Sys2Proof.Machine
end

