-- ==== Sys2Proof/Laws/Adler.lean ====
section
/-! SUPPORT. The two halves of a packed checksum (R13) and the loop of R100 over a split payload. -/

namespace Sys2Proof.Machine

theorem adlerPack_toNat {s2 s1 : Nat} (h2 : s2 < 65536) (h1 : s1 < 65536) : (adlerPack s2 s1).toNat = s2 * 65536 + s1 := by
  have h1' : s1 < 2 ^ 16 := h1
  simp only [adlerPack, BitVec.toNat_ofNat]
  rw [← Nat.shiftLeft_add_eq_or_of_lt h1', Nat.shiftLeft_eq]
  omega

theorem adlerS1_pack {s2 s1 : Nat} (h2 : s2 < 65536) (h1 : s1 < 65536) : adlerS1 (adlerPack s2 s1) = s1 := by
  simp only [adlerS1, BitVec.extractLsb'_toNat, adlerPack_toNat h2 h1, Nat.shiftRight_eq_div_pow]
  omega

theorem adlerS2_pack {s2 s1 : Nat} (h2 : s2 < 65536) (h1 : s1 < 65536) : adlerS2 (adlerPack s2 s1) = s2 := by
  simp only [adlerS2, BitVec.extractLsb'_toNat, adlerPack_toNat h2 h1, Nat.shiftRight_eq_div_pow]
  omega

theorem adlerS1_lt (c : Word32) : adlerS1 c < 65536 := (c.extractLsb' 0 16).isLt

theorem adlerS2_lt (c : Word32) : adlerS2 c < 65536 := (c.extractLsb' 16 16).isLt

/-- A checksum is its two halves. -/
theorem adlerPack_halves (c : Word32) : adlerPack (adlerS2 c) (adlerS1 c) = c := by
  apply BitVec.eq_of_toNat_eq
  rw [adlerPack_toNat (adlerS2_lt c) (adlerS1_lt c)]
  have := c.isLt
  simp only [adlerS1, adlerS2, BitVec.extractLsb'_toNat, Nat.shiftRight_eq_div_pow]
  omega

/-- The loop of R100 in two lots. -/
theorem adlerSums_append (xs ys : List Byte) (s : Nat × Nat) : adlerSums (xs ++ ys) s = adlerSums ys (adlerSums xs s) := by
  induction xs generalizing s with
  | nil => rfl
  | cons x xs ih => obtain ⟨s1, s2⟩ := s; simp only [List.cons_append, adlerSums, ih]

/-- The sub-sums stay below 65536 from any checksum (R100). -/
theorem adlerSums_lt (xs : List Byte) (s : Nat × Nat) (h1 : s.1 < 65536) (h2 : s.2 < 65536) :
    (adlerSums xs s).1 < 65536 ∧ (adlerSums xs s).2 < 65536 := by
  induction xs generalizing s with
  | nil => exact ⟨h1, h2⟩
  | cons x xs ih =>
    obtain ⟨s1, s2⟩ := s
    have hm : adlerMod = 65521 := rfl
    exact ih _ (by simp only [hm]; omega) (by simp only [hm]; omega)

/-- What `AdlerCombine` does to the two halves (R100). -/
theorem adlerCombine_halves (c : Word32) (data : List Byte) :
    (adlerS1 (adlerCombine c data), adlerS2 (adlerCombine c data)) = adlerSums data (adlerS1 c, adlerS2 c) := by
  have h := adlerSums_lt data (adlerS1 c, adlerS2 c) (adlerS1_lt c) (adlerS2_lt c)
  simp only [adlerCombine, adlerS1_pack h.2 h.1, adlerS2_pack h.2 h.1]

/-- What `AdlerZeroRun` does to the two halves (R101). -/
theorem adlerZeroRun_halves (c : Word32) (n : Nat) :
    adlerS1 (adlerZeroRun c n) = adlerS1 c ∧ adlerS2 (adlerZeroRun c n) = (adlerS2 c + n * adlerS1 c) % 65521 := by
  have hm : adlerMod = 65521 := rfl
  have h : (adlerS2 c + n * adlerS1 c) % 65521 < 65536 := by omega
  simp only [adlerZeroRun, hm, adlerS1_pack h (adlerS1_lt c), adlerS2_pack h (adlerS1_lt c), and_self]

end Sys2Proof.Machine
end

