-- ==== Sys2Proof/Laws/Command.lean ====
section
/-! SUPPORT. What a command can do, said once: the cases of the common checks (R122), of exec and of a step. -/

namespace Sys2Proof.Machine

/-- A faulted block only answers (R124). -/
theorem runCommand_faulted {len body} {s : State} (h : s.faultValid = true) : runCommand len body s = answerFaulted s := by
  simp [runCommand, h]

/-- A wrong payload length faults (R122). -/
theorem runCommand_wrongPayload {len body} {s : State} (h : s.faultValid = false) (hp : (payload s).length ≠ len) :
    runCommand len body s = raiseFault .payloadLength s := by
  simp [runCommand, h, hp]

/-- Past the common checks the body answers. -/
theorem runCommand_ok {len body} {s s' : State} {r : Response} (h : s.faultValid = false) (hp : (payload s).length = len)
    (hb : body s = .ok (s', r)) : runCommand len body s = answer s' r := by
  simp [runCommand, h, hp, hb]

/-- Past the common checks the body's failing assertion faults. -/
theorem runCommand_error {len body} {s : State} {e : FaultCode} (h : s.faultValid = false) (hp : (payload s).length = len)
    (hb : body s = .error e) : runCommand len body s = raiseFault e s := by
  simp [runCommand, h, hp, hb]

/-- Everything the common checks can do (R122). -/
theorem runCommand_cases (len : Nat) (body : State → Except FaultCode (State × Response)) (s : State) :
    (s.faultValid = true ∧ runCommand len body s = answerFaulted s)
    ∨ (s.faultValid = false ∧ (payload s).length ≠ len ∧ runCommand len body s = raiseFault .payloadLength s)
    ∨ (s.faultValid = false ∧ (payload s).length = len ∧ ∃ e, body s = .error e ∧ runCommand len body s = raiseFault e s)
    ∨ (s.faultValid = false ∧ (payload s).length = len
        ∧ ∃ s' r, body s = .ok (s', r) ∧ runCommand len body s = answer s' r) := by
  by_cases h : s.faultValid = true
  · exact .inl ⟨h, runCommand_faulted h⟩
  · have h' : s.faultValid = false := by simpa using h
    by_cases hp : (payload s).length = len
    · rcases hb : body s with e | ⟨s', r⟩
      · exact .inr (.inr (.inl ⟨h', hp, e, rfl, runCommand_error h' hp hb⟩))
      · exact .inr (.inr (.inr ⟨h', hp, s', r, rfl, runCommand_ok h' hp hb⟩))
    · exact .inr (.inl ⟨h', hp, runCommand_wrongPayload h' hp⟩)

/-- The rule of a command by itself, past the common checks: its effect on the registers and its answer. -/
def bodyOf : Instr → State → Except FaultCode (State × Response)
  | .bwPush value nbits, s => do
    let w ← push s.params.bwCap value.toNat nbits s.bw
    return (setBw s w, respNone)
  | .bwPushRev value nbits, s => do
    let w ← pushRev s.params.bwCap value.toNat nbits s.bw
    return (setBw s w, respNone)
  | .bwAligned, s => .ok (s, respScalar (alignedScalar s.bw))
  | .bwClear, s => .ok (setBw s (clearWriter s.bw), respNone)
  | .bwExtract, s => do
    let b ← extract s.bw
    return (s, respPlain b)
  | .feEncode _, s => do
    let r ← fixedEncode s.params.bwCap (payload s) s.bw
    return (setBw s r.2, respPlain r.1)
  | .zrEncode n, s => do
    let r ← zeroRunEncode s.params.bwCap n s.bw
    return (setBw s r.2, respBlock r.1)
  | .adLoad c, s => .ok (setAdler s c, respScalar (zextAdler c))
  | .adCombine _, s => .ok (setAdler s (adlerCombine s.adler (payload s)), respScalar (zextAdler (adlerCombine s.adler (payload s))))
  | .adZeroRun n, s => .ok (setAdler s (adlerZeroRun s.adler n), respScalar (zextAdler (adlerZeroRun s.adler n)))
  | .adRead, s => .ok (s, respScalar (zextAdler s.adler))

/-- Every command is its rule behind the common checks. -/
theorem exec_eq (i : Instr) (s : State) : exec i s = .next (runCommand (announcedLength i) (bodyOf i) s) := by
  cases i <;> rfl

/-- A command past the common checks whose rule answers. -/
theorem exec_ok {i : Instr} {s s' : State} {r : Response} (h : Ready i s) (hb : bodyOf i s = .ok (s', r)) :
    exec i s = .next (answer s' r) := by
  rw [exec_eq, runCommand_ok h.1 h.2 hb]

/-- A command past the common checks whose assertion fails. -/
theorem exec_error {i : Instr} {s : State} {e : FaultCode} (h : Ready i s) (hb : bodyOf i s = .error e) :
    exec i s = .next (raiseFault e s) := by
  rw [exec_eq, runCommand_error h.1 h.2 hb]

/-- Everything a command can do. -/
theorem exec_cases (i : Instr) (s : State) :
    (s.faultValid = true ∧ exec i s = .next (answerFaulted s))
    ∨ (s.faultValid = false ∧ (payload s).length ≠ announcedLength i ∧ exec i s = .next (raiseFault .payloadLength s))
    ∨ (Ready i s ∧ ∃ e, bodyOf i s = .error e ∧ exec i s = .next (raiseFault e s))
    ∨ (Ready i s ∧ ∃ s' r, bodyOf i s = .ok (s', r) ∧ exec i s = .next (answer s' r)) := by
  rw [exec_eq]
  rcases runCommand_cases (announcedLength i) (bodyOf i) s with ⟨h, e⟩ | ⟨h, p, e⟩ | ⟨h, p, x, hx, e⟩ | ⟨h, p, t, r, hx, e⟩
  · exact .inl ⟨h, by rw [e]⟩
  · exact .inr (.inl ⟨h, p, by rw [e]⟩)
  · exact .inr (.inr (.inl ⟨⟨h, p⟩, x, hx, by rw [e]⟩))
  · exact .inr (.inr (.inr ⟨⟨h, p⟩, t, r, hx, by rw [e]⟩))

/-- What a rule may write: the writer and the checksum, never the fault register, the parameters, the input or the responses. -/
theorem bodyOf_frame {i : Instr} {s s' : State} {r : Response} (h : bodyOf i s = .ok (s', r)) :
    s' = { s with bw := s'.bw, adler := s'.adler } := by
  cases i <;> simp only [bodyOf, bind, Except.bind, pure, Except.pure] at h <;> (try split at h) <;> cases h <;> rfl

/-- Everything a step can do: wait, reset, or take one command. -/
theorem step_cases {s t : State} (h : step s = .next t) :
    (s.input = [] ∧ t = s)
    ∨ (∃ later, s.input = .reset :: later ∧ t = applyReset later s)
    ∨ (∃ c rest e, s.input = .command c :: rest ∧ decode c.word = .error e ∧ t = rejectWord s)
    ∨ (∃ c rest i, s.input = .command c :: rest ∧ decode c.word = .ok i ∧ exec i s = .next t) := by
  unfold step at h
  split at h
  · exact .inl ⟨‹_›, by cases h; rfl⟩
  · exact .inr (.inl ⟨_, ‹_›, by cases h; rfl⟩)
  · split at h
    · exact .inr (.inr (.inr ⟨_, _, _, ‹_›, ‹_›, h⟩))
    · exact .inr (.inr (.inl ⟨_, _, _, ‹_›, ‹_›, by cases h; rfl⟩))

end Sys2Proof.Machine
end

