-- ==== Sys2Proof/Laws/Writer.lean ====
section
/-! SUPPORT. The bit writer as its bit sequence (R11, R66): pushing bits onto the packing of a bit list gives the packing of the longer
list, or BwOverflow when the buffer is too small. -/

namespace Sys2Proof.Machine

/-! ### Bits and numbers -/

theorem bitsToNat_append (xs ys : List Bool) : bitsToNat (xs ++ ys) = bitsToNat xs + 2 ^ xs.length * bitsToNat ys := by
  induction xs with
  | nil => simp [bitsToNat]
  | cons b bs ih => simp [bitsToNat, ih, pow_succ]; ring

theorem bitsToNat_lt (xs : List Bool) : bitsToNat xs < 2 ^ xs.length := by
  induction xs with
  | nil => simp [bitsToNat]
  | cons b bs ih => cases b <;> simp [bitsToNat, pow_succ] <;> omega

theorem testBit_bitsToNat (xs : List Bool) (i : Nat) : (bitsToNat xs).testBit i = xs.getD i false := by
  induction xs generalizing i with
  | nil => simp [bitsToNat]
  | cons b bs ih =>
    have hb : bitsToNat (b :: bs) = Nat.bit b (bitsToNat bs) := by cases b <;> simp [bitsToNat, Nat.bit]; omega
    rw [hb]
    cases i with
    | zero => simp
    | succ i => simp [Nat.testBit_bit_succ, ih]

/-- The bits of a byte determine it. -/
theorem byteAt_byteBits_append (b : Byte) (rest : List Bool) : byteAt (byteBits b ++ rest) 0 = b := by
  have hl : (byteBits b).length = 8 := by simp [byteBits]
  have : ∀ b : Byte, BitVec.ofNat 8 (bitsToNat (byteBits b)) = b := by decide +kernel
  simp [byteAt, ← hl, this]

@[simp] theorem byteBits_length (b : Byte) : (byteBits b).length = 8 := by simp [byteBits]

@[simp] theorem bitsOf_nil : bitsOf [] = [] := rfl

@[simp] theorem bitsOf_cons (b : Byte) (bs : List Byte) : bitsOf (b :: bs) = byteBits b ++ bitsOf bs := rfl

@[simp] theorem bitsOf_append (xs ys : List Byte) : bitsOf (xs ++ ys) = bitsOf xs ++ bitsOf ys := by simp [bitsOf]

@[simp] theorem bitsOf_length (bs : List Byte) : (bitsOf bs).length = 8 * bs.length := by
  induction bs with
  | nil => rfl
  | cons b bs ih => simp [ih]; omega

@[simp] theorem partialBits_length (w : BitWriter) : (partialBits w).length = w.cnt.toNat := by simp [partialBits]

/-- The length of the stream (R11). -/
theorem streamOf_length (w : BitWriter) : (streamOf w).length = 8 * w.done.length + w.cnt.toNat := by simp [streamOf]

/-! ### Packing -/

theorem byteAt_succ (xs rest : List Bool) (h : xs.length = 8) (k : Nat) : byteAt (xs ++ rest) (k + 1) = byteAt rest k := by
  have : 8 * (k + 1) = xs.length + 8 * k := by omega
  simp [byteAt, this, ← List.drop_drop]

theorem packBytes_append (xs rest : List Bool) (h : xs.length = 8) :
    packBytes (xs ++ rest) = byteAt xs 0 :: packBytes rest := by
  have hl : (xs ++ rest).length / 8 = rest.length / 8 + 1 := by rw [List.length_append]; omega
  have h0 : byteAt (xs ++ rest) 0 = byteAt xs 0 := by simp [byteAt, ← h]
  rw [packBytes, hl, List.range_succ_eq_map, List.map_cons, h0, List.map_map]
  congr 1
  exact List.map_congr_left fun k _ => byteAt_succ xs rest h k

theorem packBytes_bitsOf_append (bs : List Byte) (rest : List Bool) : packBytes (bitsOf bs ++ rest) = bs ++ packBytes rest := by
  induction bs with
  | nil => simp
  | cons b bs ih =>
    have h := byteAt_byteBits_append b []
    simp only [List.append_nil] at h
    rw [bitsOf_cons, List.append_assoc, packBytes_append _ _ (byteBits_length b), ih, h, List.cons_append]

theorem byteAt_bitsOf_append (bs : List Byte) (rest : List Bool) : byteAt (bitsOf bs ++ rest) bs.length = byteAt rest 0 := by
  induction bs with
  | nil => rfl
  | cons b bs ih =>
    rw [bitsOf_cons, List.append_assoc, List.length_cons, byteAt_succ _ _ (byteBits_length b), ih]

theorem packBytes_short (xs : List Bool) (h : xs.length < 8) : packBytes xs = [] := by
  simp [packBytes, Nat.div_eq_of_lt h]

/-- The packed bytes of a whole number of bytes give the bits back. -/
theorem byteBits_byteAt (xs : List Bool) (h : xs.length = 8) : byteBits (byteAt xs 0) = xs := by
  apply List.ext_getElem
  · simp [h]
  · intro i h1 h2
    have hi : i < 8 := by simpa using h1
    simp only [byteBits, byteAt, List.getElem_map, List.getElem_range, BitVec.getLsbD_ofNat, hi, decide_true, Bool.true_and,
      testBit_bitsToNat]
    rw [Nat.mul_zero, List.drop_zero, ← h, List.take_length]
    simp [h2]

theorem bitsOf_packBytes (k : Nat) (xs : List Bool) (h : xs.length = 8 * k) : bitsOf (packBytes xs) = xs := by
  induction k generalizing xs with
  | zero =>
    have : xs = [] := List.eq_nil_of_length_eq_zero (by omega)
    subst this; rfl
  | succ k ih =>
    obtain ⟨ys, zs, rfl, hy⟩ : ∃ ys zs, xs = ys ++ zs ∧ ys.length = 8 :=
      ⟨xs.take 8, xs.drop 8, by simp, by simp; omega⟩
    have hz : zs.length = 8 * k := by simp at h; omega
    rw [packBytes_append _ _ hy, bitsOf_cons, ih zs hz, byteBits_byteAt _ hy]

/-- A writer whose unfilled bits are 0 is the packing of its stream (R11: "a model may keep that bit sequence instead"). -/
theorem packed_streamOf (w : BitWriter) (h : writerWf w = true) : packed (streamOf w) = w := by
  obtain ⟨done, cur, cnt⟩ := w
  have hc : cnt.toNat < 8 := cnt.isLt
  have hp : (partialBits ⟨done, cur, cnt⟩).length = cnt.toNat := partialBits_length _
  have hlen : (streamOf ⟨done, cur, cnt⟩).length = 8 * done.length + cnt.toNat := streamOf_length _
  have hcur : byteAt (partialBits ⟨done, cur, cnt⟩) 0 = cur := by
    have : ∀ (cnt : BitVec 3) (cur : Byte), cur.toNat < 2 ^ cnt.toNat → byteAt (partialBits ⟨[], cur, cnt⟩) 0 = cur := by
      decide +kernel
    exact this cnt cur (by simpa [writerWf] using h)
  simp only [packed, hlen, BitWriter.mk.injEq]
  refine ⟨?_, ?_, ?_⟩
  · rw [streamOf, packBytes_bitsOf_append, packBytes_short _ (by omega), List.append_nil]
  · rw [show (8 * done.length + cnt.toNat) / 8 = done.length by omega, streamOf, byteAt_bitsOf_append, hcur]
  · apply BitVec.eq_of_toNat_eq
    simp; omega

/-- The stream of a packing is the list packed. -/
theorem streamOf_packed (xs : List Bool) : streamOf (packed xs) = xs := by
  obtain ⟨ys, zs, rfl, hy, hz⟩ : ∃ ys zs, xs = ys ++ zs ∧ ys.length = 8 * (xs.length / 8) ∧ zs.length = xs.length % 8 :=
    ⟨xs.take (8 * (xs.length / 8)), xs.drop (8 * (xs.length / 8)), by simp, by simp; omega, by simp; omega⟩
  have hz8 : zs.length < 8 := by omega
  have hk : (ys ++ zs).length / 8 = ys.length / 8 := by simp; omega
  have hm : (ys ++ zs).length % 8 = zs.length := by simp; omega
  have hb : bitsOf (packBytes ys) = ys := bitsOf_packBytes (ys.length / 8) ys (by omega)
  have hcat : ys ++ zs = bitsOf (packBytes ys) ++ zs := by rw [hb]
  have hpl : (packBytes ys).length = ys.length / 8 := by simp [packBytes]
  have hdone : packBytes (ys ++ zs) = packBytes ys := by
    rw [hcat, packBytes_bitsOf_append, packBytes_short zs hz8, List.append_nil]
  have hcur : byteAt (ys ++ zs) ((ys ++ zs).length / 8) = byteAt zs 0 := by
    rw [hk, ← hpl]; conv => lhs; rw [hcat]
    exact byteAt_bitsOf_append _ _
  have hcnt : ((packed (ys ++ zs)).cnt).toNat = zs.length := by
    simp only [packed, hm]; simp; omega
  simp only [streamOf]
  rw [show (packed (ys ++ zs)).done = packBytes ys from hdone, hb]
  congr 1
  apply List.ext_getElem
  · simp [hcnt]
  · intro i h1 h2
    have hi : i < 8 := by omega
    simp only [partialBits, List.getElem_map, List.getElem_range]
    rw [show (packed (ys ++ zs)).cur = byteAt zs 0 from hcur]
    simp only [byteAt, BitVec.getLsbD_ofNat, hi, decide_true, Bool.true_and, testBit_bitsToNat]
    rw [Nat.mul_zero, List.drop_zero, List.take_of_length_le (by omega)]
    simp [h2]

theorem packed_nil : packed [] = BitWriter.empty := rfl

/-- A packing keeps the unfilled bits at 0 (R11). -/
theorem writerWf_packed (xs : List Bool) : writerWf (packed xs) = true := by
  have h : (bitsToNat ((xs.drop (8 * (xs.length / 8))).take 8)) < 2 ^ (xs.length % 8) := by
    refine lt_of_lt_of_le (bitsToNat_lt _) (Nat.pow_le_pow_right (by decide) ?_)
    simp; omega
  have h8 : 2 ^ (xs.length % 8) ≤ 2 ^ 8 := Nat.pow_le_pow_right (by decide) (by omega)
  have hm : xs.length % 8 % 2 ^ 3 = xs.length % 8 := Nat.mod_eq_of_lt (by omega)
  simp only [writerWf, packed, byteAt, BitVec.toNat_ofNat, hm, decide_eq_true_eq]
  rw [Nat.mod_eq_of_lt (by omega)]
  exact h

theorem packed_done_length (xs : List Bool) : (packed xs).done.length = xs.length / 8 := by simp [packed, packBytes]

theorem packed_cnt (xs : List Bool) : (packed xs).cnt.toNat = xs.length % 8 := by
  simp [packed]

/-- Whether a packing is aligned. -/
theorem aligned_packed (xs : List Bool) : aligned (packed xs) = decide (xs.length % 8 = 0) := by
  have h := packed_cnt xs
  rw [aligned, Bool.eq_iff_iff]
  simp only [beq_iff_eq, decide_eq_true_eq]
  constructor
  · intro h0; rw [h0] at h; simpa using h.symm
  · intro h0; apply BitVec.eq_of_toNat_eq; rw [h, h0]; rfl

/-! ### Pushing -/

/-- `PutBit` on a packing (R60). -/
theorem putBit_packed (cap : Option Nat) (b : Bool) (xs : List Bool) :
    putBit cap b (packed xs)
      = if xs.length % 8 = 7 ∧ hasRoom cap (packed xs).done = false then .error .bwOverflow else .ok (packed (xs ++ [b])) := by
  obtain ⟨ys, zs, hxs, hy, hz⟩ : ∃ ys zs, xs = bitsOf ys ++ zs ∧ ys = packBytes xs ∧ zs.length = xs.length % 8 := by
    refine ⟨packBytes xs, partialBits (packed xs), ?_, rfl, ?_⟩
    · conv => lhs; rw [← streamOf_packed xs]
      rfl
    · simp [packed_cnt]
  have hz8 : zs.length < 8 := by omega
  have hlen : xs.length = 8 * ys.length + zs.length := by rw [hxs]; simp
  have hw : packed xs = ⟨ys, byteAt zs 0, BitVec.ofNat 3 zs.length⟩ := by
    simp only [packed, ← hy, hz, BitWriter.mk.injEq, true_and, and_true]
    rw [show xs.length / 8 = ys.length by omega]
    conv => lhs; rw [hxs]
    exact byteAt_bitsOf_append _ _
  have hbit : byteAt zs 0 ||| ((BitVec.ofBool b).setWidth 8 <<< zs.length) = byteAt (zs ++ [b]) 0 := by
    have hlt : bitsToNat zs < 2 ^ zs.length := bitsToNat_lt zs
    have h1 : bitsToNat (zs ++ [b]) = bitsToNat zs ||| (b.toNat <<< zs.length) := by
      rw [bitsToNat_append, Nat.lor_comm, ← Nat.shiftLeft_add_eq_or_of_lt hlt, Nat.shiftLeft_eq]
      simp [bitsToNat]; ring
    apply BitVec.eq_of_toNat_eq
    simp only [byteAt, Nat.mul_zero, List.drop_zero, BitVec.toNat_or, BitVec.toNat_ofNat, BitVec.toNat_shiftLeft,
      BitVec.toNat_setWidth]
    rw [List.take_of_length_le (by omega), List.take_of_length_le (by simp; omega), h1, Nat.or_mod_two_pow]
    congr 2
    cases b <;> simp
  have hcnt : (BitVec.ofNat 3 zs.length).toNat = zs.length := by simp; omega
  rw [hw]
  simp only [putBit, placeBit, hcnt, hbit]
  by_cases h7 : zs.length = 7
  · have hc7 : BitVec.ofNat 3 zs.length = 7 := by rw [h7]; rfl
    have hx7 : xs.length % 8 = 7 := by omega
    rw [if_pos hc7]
    have hnew : packed (xs ++ [b]) = ⟨ys ++ [byteAt (zs ++ [b]) 0], 0, 0⟩ := by
      have hl : (xs ++ [b]).length = 8 * (ys.length + 1) := by simp; omega
      have hcat : xs ++ [b] = bitsOf (ys ++ [byteAt (zs ++ [b]) 0]) ++ [] := by
        rw [hxs, bitsOf_append, bitsOf_cons, byteBits_byteAt _ (by simp; omega)]; simp
      simp only [packed, hl, BitWriter.mk.injEq]
      refine ⟨?_, ?_, ?_⟩
      · rw [hcat, packBytes_bitsOf_append, packBytes_short _ (by decide), List.append_nil]
      · rw [Nat.mul_div_cancel_left _ (by decide), hcat,
          show ys.length + 1 = (ys ++ [byteAt (zs ++ [b]) 0]).length by simp, byteAt_bitsOf_append]; rfl
      · rw [Nat.mul_mod_right]; rfl
    by_cases hr : hasRoom cap ys = true
    · simp [hr, hnew]
    · simp [hr, hx7]
  · have hc7 : BitVec.ofNat 3 zs.length ≠ 7 := by
      intro h; have := congrArg BitVec.toNat h; rw [hcnt] at this; exact h7 this
    have hx7 : ¬ (xs.length % 8 = 7) := by omega
    rw [if_neg hc7, if_neg (by tauto)]
    congr 1
    have hl : (xs ++ [b]).length = 8 * ys.length + (zs.length + 1) := by simp; omega
    have hcat : xs ++ [b] = bitsOf ys ++ (zs ++ [b]) := by rw [hxs, List.append_assoc]
    simp only [packed, hl, BitWriter.mk.injEq]
    refine ⟨?_, ?_, ?_⟩
    · rw [hcat, packBytes_bitsOf_append, packBytes_short _ (by simp; omega), List.append_nil]
    · rw [show (8 * ys.length + (zs.length + 1)) / 8 = ys.length by omega, hcat, byteAt_bitsOf_append]
    · apply BitVec.eq_of_toNat_eq
      simp

theorem hasRoom_eq_hasSpace (cap : Option Nat) (done : List Byte) : hasRoom cap done = hasSpace cap done.length 1 := by
  cases cap <;> simp [hasRoom, hasSpace]

/-- `PutBit` of a list of bits on a packing: the longer packing, or BwOverflow when the bytes it would complete do not fit (R42, R60, R66). -/
theorem putBits_packed (cap : Option Nat) (bits xs : List Bool) :
    putBits cap bits (packed xs)
      = if hasSpace cap (xs.length / 8) ((xs.length % 8 + bits.length) / 8) then .ok (packed (xs ++ bits)) else .error .bwOverflow := by
  induction bits generalizing xs with
  | nil =>
    have : (xs.length % 8 + ([] : List Bool).length) / 8 = 0 := by rw [List.length_nil]; omega
    rw [this]
    cases cap <;> simp [putBits, hasSpace]
  | cons b bs ih =>
    rw [putBits, putBit_packed, hasRoom_eq_hasSpace, packed_done_length]
    have hih := ih (xs ++ [b])
    rw [List.append_assoc, List.singleton_append] at hih
    cases cap with
    | none => simpa [hasSpace] using hih
    | some c =>
      by_cases h : xs.length % 8 = 7 ∧ hasSpace (some c) (xs.length / 8) 1 = false
      · rw [if_pos h]
        have h2 := h.2
        simp only [hasSpace, Bool.or_eq_false_iff, decide_eq_false_iff_not] at h2
        rw [if_neg]
        simp only [hasSpace, Bool.or_eq_true, decide_eq_true_eq, List.length_cons]
        omega
      · rw [if_neg h]
        simp only []
        rw [hih]
        have hi : hasSpace (some c) ((xs ++ [b]).length / 8) (((xs ++ [b]).length % 8 + bs.length) / 8)
            = hasSpace (some c) (xs.length / 8) ((xs.length % 8 + (b :: bs).length) / 8) := by
          rw [Bool.eq_iff_iff]
          simp only [hasSpace, Bool.or_eq_true, decide_eq_true_eq, List.length_cons, List.length_append, List.length_nil,
            Bool.or_eq_false_iff, decide_eq_false_iff_not, not_and] at h ⊢
          omega
        rw [hi]

/-- The same from any writer whose unfilled bits are 0. -/
theorem putBits_wf (cap : Option Nat) (bits : List Bool) (w : BitWriter) (h : writerWf w = true) :
    putBits cap bits w
      = if hasSpace cap w.done.length ((w.cnt.toNat + bits.length) / 8) then .ok (packed (streamOf w ++ bits)) else .error .bwOverflow := by
  have hl := streamOf_length w
  have hc : w.cnt.toNat < 8 := w.cnt.isLt
  conv => lhs; rw [← packed_streamOf w h]
  rw [putBits_packed, hl, show (8 * w.done.length + w.cnt.toNat) / 8 = w.done.length by omega,
    show (8 * w.done.length + w.cnt.toNat) % 8 = w.cnt.toNat by omega]

/-- Grouping does not matter (R66): bits in two lots or in one. -/
theorem putBits_append (cap : Option Nat) (xs ys : List Bool) (w : BitWriter) :
    putBits cap (xs ++ ys) w = (putBits cap xs w).bind (putBits cap ys) := by
  induction xs generalizing w with
  | nil => rfl
  | cons b bs ih =>
    simp only [List.cons_append, putBits]
    split
    · exact ih _
    · rfl

@[simp] theorem fieldBits_length (value nbits : Nat) : (fieldBits value nbits).length = nbits := by simp [fieldBits]

@[simp] theorem fieldBitsRev_length (value nbits : Nat) : (fieldBitsRev value nbits).length = nbits := by simp [fieldBitsRev]

theorem fieldBitsRev_eq_reverse (value nbits : Nat) : fieldBitsRev value nbits = (fieldBits value nbits).reverse := by
  simp [fieldBitsRev, fieldBits]

/-- Truncation does not reach the bits below `nbits` (R61). -/
theorem fieldBits_eq (value nbits : Nat) : fieldBits value nbits = (List.range nbits).map (fun i => value.testBit i) := by
  simp only [fieldBits, truncated]
  apply List.map_congr_left
  intro i hi
  simp [Nat.testBit_mod_two_pow, List.mem_range.mp hi]

/-- Only BwOverflow can come out of a push. -/
theorem putBits_error {cap : Option Nat} {bits : List Bool} {w : BitWriter} {e : FaultCode} (h : putBits cap bits w = .error e) :
    e = .bwOverflow := by
  induction bits generalizing w with
  | nil => simp [putBits] at h
  | cons b bs ih =>
    simp only [putBits, putBit] at h
    split at h
    · exact ih h
    · rename_i e' he
      cases h
      split at he
      · split at he
        · cases he
        · cases he; rfl
      · cases he

/-- `Extract()` on a packing (R65). -/
theorem extract_packed (xs : List Bool) :
    extract (packed xs) = if xs.length % 8 = 0 then .ok (packBytes xs) else .error .extractUnaligned := by
  rw [extract, aligned_packed]
  simp only [decide_eq_true_eq, packed]

end Sys2Proof.Machine
end

