-- ==== Sys2Proof/Laws/Encoders.lean ====
section
/-! SUPPORT. The encoders as the bits they push: each micro-sequence (R70, R71, R72, R84, R88 to R92) on a packing is one push of a list of
bits, which depends on the packing through its length alone. -/

namespace Sys2Proof.Machine

/-- `f` pushes the bits `bits k` when `k` bits are in the writer. -/
def Emits (f : Option Nat → BitWriter → Except FaultCode BitWriter) (bits : Nat → List Bool) : Prop :=
  ∀ cap xs, f cap (packed xs) = putBits cap (bits xs.length) (packed xs)

theorem putBits_packed_bind {cap : Option Nat} {bits xs : List Bool} {g : BitWriter → Except FaultCode BitWriter}
    {more : List Bool} (hg : g (packed (xs ++ bits)) = putBits cap more (packed (xs ++ bits))) :
    (putBits cap bits (packed xs) >>= g) = putBits cap (bits ++ more) (packed xs) := by
  simp only [bind]
  rw [putBits_append, putBits_packed]
  split
  · exact hg
  · rfl

/-- Two steps in a row push the bits of the first and then those of the second. -/
theorem Emits.seq {f g : Option Nat → BitWriter → Except FaultCode BitWriter} {b c : Nat → List Bool}
    (hf : Emits f b) (hg : Emits g c) :
    Emits (fun cap w => f cap w >>= g cap) (fun k => b k ++ c (k + (b k).length)) := by
  intro cap xs
  show (f cap (packed xs) >>= g cap) = _
  rw [hf cap xs]
  apply putBits_packed_bind
  rw [hg, List.length_append]

theorem emits_push (value nbits : Nat) : Emits (fun cap => push cap value nbits) (fun _ => fieldBits value nbits) := fun _ _ => rfl

theorem emits_pushRev (value nbits : Nat) : Emits (fun cap => pushRev cap value nbits) (fun _ => fieldBitsRev value nbits) :=
  fun _ _ => rfl

theorem emits_ok : Emits (fun _ w => .ok w) (fun _ => []) := fun _ _ => rfl

theorem Emits.congr {f : Option Nat → BitWriter → Except FaultCode BitWriter} {b c : Nat → List Bool} (hf : Emits f b)
    (h : ∀ k, b k = c k) : Emits f c := by
  intro cap xs; rw [hf, h]

theorem Emits.of_eq {f g : Option Nat → BitWriter → Except FaultCode BitWriter} {b : Nat → List Bool} (hf : Emits f b)
    (h : ∀ cap w, g cap w = f cap w) : Emits g b := by
  intro cap xs; rw [h, hf]

/-! ### The fixed encoder -/

/-- The stream bits of a literal (R54, R70). -/
def literalBits (x : Byte) : List Bool := fieldBitsRev (fixedLiteralCode x.toNat).1 (fixedLiteralCode x.toNat).2

theorem emits_fixLit (x : Byte) : Emits (fun cap => fixLit cap x) (fun _ => literalBits x) := fun _ _ => rfl

theorem emits_fixLits (data : List Byte) : Emits (fun cap => fixLits cap data) (fun _ => data.flatMap literalBits) := by
  induction data with
  | nil => exact emits_ok
  | cons x xs ih =>
    refine ((emits_fixLit x).seq ih).of_eq fun cap w => ?_
    simp only [fixLits, bind, Except.bind]
    cases fixLit cap x w <;> rfl

/-- How many zero bits bring a stream of `k` bits to a byte boundary. -/
def padCount (k : Nat) : Nat := (8 - k % 8) % 8

theorem emits_padToByte (fuel : Nat) (cap : Option Nat) (xs : List Bool) (h : padCount xs.length ≤ fuel) :
    padToByte cap fuel (packed xs) = putBits cap (List.replicate (padCount xs.length) false) (packed xs) := by
  induction fuel generalizing xs with
  | zero =>
    rw [Nat.le_zero.mp h]; rfl
  | succ fuel ih =>
    rw [padToByte, aligned_packed]
    by_cases h0 : xs.length % 8 = 0
    · simp [h0, padCount, putBits]
    · have hp : padCount xs.length = padCount (xs ++ [false]).length + 1 := by
        simp only [padCount, List.length_append, List.length_singleton]; omega
      have hb : fieldBits 0 1 = [false] := by decide
      simp only [h0, decide_false, Bool.false_eq_true, if_false]
      rw [hp, List.replicate_succ]
      have := putBits_packed_bind (cap := cap) (bits := [false]) (xs := xs) (g := padToByte cap fuel)
        (more := List.replicate (padCount (xs ++ [false]).length) false) (ih _ (by omega))
      rw [List.singleton_append] at this
      rw [← this, push, hb]
      cases putBits cap [false] (packed xs) <;> rfl

/-- The bits of the empty stored block that aligns a stream of `k` bits (R55, R71). -/
def alignBits (k : Nat) : List Bool :=
  if k % 8 = 0 then []
  else List.replicate (3 + padCount (k + 3)) false ++ List.replicate 16 false ++ List.replicate 16 true

theorem emits_alignStored : Emits alignStored alignBits := by
  intro cap xs
  rw [alignStored, aligned_packed]
  by_cases h0 : xs.length % 8 = 0
  · simp [h0, alignBits, putBits]
  · simp only [h0, decide_false, Bool.false_eq_true, if_false, alignBits]
    have e1 : fieldBits 0 1 = [false] := by decide
    have e2 : fieldBits 0 2 = [false, false] := by decide
    have e3 : fieldBits 0 16 = List.replicate 16 false := by decide
    have e4 : fieldBits 0xFFFF 16 = List.replicate 16 true := by decide
    simp only [push, e1, e2, e3, e4, bind]
    have hsplit : List.replicate (3 + padCount (xs.length + 3)) false ++ List.replicate 16 false ++ List.replicate 16 true
        = [false] ++ ([false, false] ++ (List.replicate (padCount (xs.length + 3)) false
          ++ (List.replicate 16 false ++ List.replicate 16 true))) := by
      rw [List.replicate_add]; simp
    rw [hsplit]
    refine putBits_packed_bind (putBits_packed_bind ?_)
    have hl : (xs ++ [false] ++ [false, false]).length = xs.length + 3 := by simp
    rw [emits_padToByte 7 cap _ (by rw [padCount]; omega), hl]
    exact putBits_packed_bind (putBits_packed_bind rfl)

/-- A stream of `k` bits and its stored pad end on a byte boundary. -/
theorem alignBits_aligned (k : Nat) : (k + (alignBits k).length) % 8 = 0 := by
  simp only [alignBits]
  split
  · simpa
  · simp only [List.length_append, List.length_replicate, padCount]; omega

/-- The bits of `FixedEncode` before the pad (R72): "T = 10 + 8a + 9b bits are pushed before the pad" (R73). -/
def fixedCore (data : List Byte) : List Bool :=
  [false] ++ [true, false] ++ data.flatMap literalBits ++ List.replicate 7 false

/-- All the bits of `FixedEncode` (R72). -/
def fixedStream (data : List Byte) : List Bool := fixedCore data ++ alignBits (fixedCore data).length

theorem fixedStream_aligned (data : List Byte) : (fixedStream data).length % 8 = 0 := by
  rw [fixedStream, List.length_append]; exact alignBits_aligned _

/-- An emission from a cleared writer, extracted and cleared: its bytes, or BwOverflow. -/
theorem emit_extract {cap : Option Nat} {bits : List Bool} (h : bits.length % 8 = 0) :
    (do let w ← putBits cap bits BitWriter.empty
        let b ← extract w
        return (b, BitWriter.empty) : Except FaultCode (List Byte × BitWriter))
      = if hasSpace cap 0 (bits.length / 8) then .ok (packBytes bits, BitWriter.empty) else .error .bwOverflow := by
  rw [← packed_nil, putBits_packed]
  simp only [List.length_nil, Nat.zero_div, Nat.zero_mod, Nat.zero_add, List.nil_append]
  split
  · simp only [bind, Except.bind, extract_packed, h, if_true, pure, Except.pure]
  · rfl

/-- `FixedEncode(data)` (R72): the packing of its bits, the writer left cleared, or BwOverflow. -/
theorem fixedEncode_eq (cap : Option Nat) (data : List Byte) (w : BitWriter) :
    fixedEncode cap data w
      = if hasSpace cap 0 ((fixedStream data).length / 8) then .ok (packBytes (fixedStream data), BitWriter.empty)
        else .error .bwOverflow := by
  rw [← emit_extract (fixedStream_aligned data)]
  have hem := (emits_push 0 1).seq ((emits_push 1 2).seq ((emits_fixLits data).seq ((emits_pushRev 0 7).seq emits_alignStored)))
  have h := hem cap []
  have hb : fieldBits 0 1 = [false] := by decide
  have hb2 : fieldBits 1 2 = [true, false] := by decide
  have hb7 : fieldBitsRev 0 7 = List.replicate 7 false := by decide
  simp only [packed_nil, List.length_nil, hb, hb2, hb7] at h
  have hs : fixedStream data = [false] ++ ([true, false] ++ (data.flatMap literalBits ++ (List.replicate 7 false ++
      alignBits (0 + [false].length + [true, false].length + (data.flatMap literalBits).length + (List.replicate 7 false).length)))) := by
    have hk : (fixedCore data).length
        = 0 + [false].length + [true, false].length + (data.flatMap literalBits).length + (List.replicate 7 false).length := by
      simp only [fixedCore, List.length_append, Nat.zero_add]
    rw [fixedStream, hk]
    simp only [fixedCore, List.append_assoc]
  rw [hs, ← h]
  simp only [fixedEncode, clearWriter_eq, bind_assoc]

end Sys2Proof.Machine
end

