-- ==== Sys2Proof/Laws/Encoding.lean ====
section
/-! SUPPORT. The fields of a built command word (R45). -/

namespace Sys2Proof

/-- The word as the number `op | nbits << 4 | arg << 16` (R45). -/
theorem buildWord_toNat (op : BitVec 4) (nbits : BitVec 6) (arg : Word64) :
    (buildWord op nbits arg).toNat = op.toNat + 16 * nbits.toNat + 65536 * arg.toNat := by
  have h1 : (0 : BitVec 6).toNat = 0 := rfl
  simp only [buildWord, BitVec.toNat_append, h1, Nat.or_zero]
  have ho := op.isLt
  have hn := nbits.isLt
  rw [← Nat.shiftLeft_add_eq_or_of_lt ho, ← Nat.shiftLeft_add_eq_or_of_lt hn]
  simp only [Nat.shiftLeft_eq]
  omega

@[simp] theorem wordOp_buildWord (op : BitVec 4) (nbits : BitVec 6) (arg : Word64) : wordOp (buildWord op nbits arg) = op := by
  apply BitVec.eq_of_toNat_eq
  have := op.isLt
  simp only [wordOp, BitVec.extractLsb'_toNat, buildWord_toNat, Nat.shiftRight_eq_div_pow]
  omega

@[simp] theorem wordNbits_buildWord (op : BitVec 4) (nbits : BitVec 6) (arg : Word64) : wordNbits (buildWord op nbits arg) = nbits := by
  apply BitVec.eq_of_toNat_eq
  have := op.isLt
  have := nbits.isLt
  simp only [wordNbits, BitVec.extractLsb'_toNat, buildWord_toNat, Nat.shiftRight_eq_div_pow]
  omega

@[simp] theorem wordRsv_buildWord (op : BitVec 4) (nbits : BitVec 6) (arg : Word64) : wordRsv (buildWord op nbits arg) = 0 := by
  apply BitVec.eq_of_toNat_eq
  have := op.isLt
  have := nbits.isLt
  simp only [wordRsv, BitVec.extractLsb'_toNat, buildWord_toNat, Nat.shiftRight_eq_div_pow]
  rw [show (0 : BitVec 6).toNat = 0 from rfl]
  omega

@[simp] theorem wordArg_buildWord (op : BitVec 4) (nbits : BitVec 6) (arg : Word64) : wordArg (buildWord op nbits arg) = arg := by
  apply BitVec.eq_of_toNat_eq
  have := op.isLt
  have := nbits.isLt
  have := arg.isLt
  simp only [wordArg, BitVec.extractLsb'_toNat, buildWord_toNat, Nat.shiftRight_eq_div_pow]
  omega

/-- A word is its four fields. -/
theorem word_fields (w : CmdWord) :
    w.toNat = (wordOp w).toNat + 16 * (wordNbits w).toNat + 1024 * (wordRsv w).toNat + 65536 * (wordArg w).toNat := by
  have := w.isLt
  simp only [wordOp, wordNbits, wordRsv, wordArg, BitVec.extractLsb'_toNat, Nat.shiftRight_eq_div_pow]
  omega

/-- A word whose `rsv` is 0 is built from its other fields. -/
theorem buildWord_fields (w : CmdWord) (h : wordRsv w = 0) : buildWord (wordOp w) (wordNbits w) (wordArg w) = w := by
  apply BitVec.eq_of_toNat_eq
  have hw := word_fields w
  rw [h, show (0 : BitVec 6).toNat = 0 from rfl] at hw
  rw [buildWord_toNat]
  omega

end Sys2Proof
end

