-- ==== Sys2Proof/Laws/ZeroRun.lean ====
section
/-! SUPPORT. The large path of ZR_ENCODE as the bits it pushes (R87 to R93): the preamble's bits depend on the excess symbol alone, no assertion of
the path fails for n > 1032, and only BwOverflow can stop it. -/

namespace Sys2Proof.Machine

/-! ### Codes and trees -/

/-- The stream bits of a symbol in a Huffman table. -/
def codeBits (table : List CodeRow) (sym : Nat) : List Bool :=
  match table.find? (fun r => r.symbol == sym) with
  | some r => fieldBitsRev r.code r.length
  | none => []

theorem emits_putCode (table : List CodeRow) (sym : Nat) : Emits (fun cap => putCode cap table sym) (fun _ => codeBits table sym) := by
  intro cap xs
  simp only [putCode, codeBits]
  cases table.find? (fun r => r.symbol == sym) <;> rfl

theorem emits_putCL (sym : Nat) : Emits (fun cap => putCL cap sym) (fun _ => codeBits clTable sym) := emits_putCode clTable sym

/-- Symbol 18 with its 7 extra bits (R83). -/
def cl18Bits (count : Nat) : List Bool := codeBits clTable 18 ++ fieldBits (count - 11) 7

theorem emits_putCL18 (count : Nat) : Emits (fun cap => putCL18 cap count) (fun _ => cl18Bits count) :=
  (emits_putCL 18).seq (emits_push (count - 11) 7)

/-- The bits of `ZeroGap(g)` (R84). -/
def gapBits (g : Nat) : List Bool := if 11 ≤ g then cl18Bits g else List.replicate (2 * g) false

theorem emits_putCLZeros (g : Nat) : Emits (fun cap => putCLZeros cap g) (fun _ => List.replicate (2 * g) false) := by
  induction g with
  | zero => exact emits_ok
  | succ g ih =>
    refine (((emits_putCL 0).seq ih).of_eq fun cap w => ?_).congr fun k => ?_
    · simp only [putCLZeros, bind, Except.bind]
      cases putCL cap 0 w <;> rfl
    · have : codeBits clTable 0 = List.replicate 2 false := by decide
      rw [this, ← List.replicate_add]; congr 1; omega

theorem emits_zeroGap (g : Nat) : Emits (fun cap => zeroGap cap g) (fun _ => gapBits g) := by
  intro cap xs
  simp only [zeroGap, gapBits]
  split
  · exact emits_putCL18 g cap xs
  · exact emits_putCLZeros g cap xs

/-- The 71 bits of the header and the code-length code (R88). -/
def headerBits : List Bool :=
  fieldBits 0 1 ++ (fieldBits 2 2 ++ (fieldBits 29 5 ++ (fieldBits 1 5 ++ (fieldBits 14 4 ++ clLengthsSent.flatMap (fun l => fieldBits l 3)))))

theorem emits_pushLengths (ls : List Nat) : Emits (fun cap => pushLengths cap ls) (fun _ => ls.flatMap (fun l => fieldBits l 3)) := by
  induction ls with
  | nil => exact emits_ok
  | cons l ls ih =>
    refine ((emits_push l 3).seq ih).of_eq fun cap w => ?_
    simp only [pushLengths, bind, Except.bind]
    cases push cap l 3 w <;> rfl

theorem zrHeader_eq (cap : Option Nat) (w : BitWriter) : zrHeader cap w = putBits cap headerBits (packed []) :=
  ((emits_push 0 1).seq ((emits_push 2 2).seq ((emits_push 29 5).seq ((emits_push 1 5).seq ((emits_push 14 4).seq
    (emits_pushLengths clLengthsSent)))))) cap []

/-- The bits of the two trees (R89). -/
def treeBits (xc : Nat) : List Bool :=
  codeBits clTable 2 ++ (cl18Bits 138 ++ (cl18Bits 117 ++ (codeBits clTable 3 ++ (gapBits (xc - 257) ++ (codeBits clTable 3
    ++ (gapBits (284 - xc) ++ (codeBits clTable 1 ++ (codeBits clTable 1 ++ codeBits clTable 0))))))))

theorem emits_zrTrees (xc : Nat) : Emits (fun cap => zrTrees cap xc) (fun _ => treeBits xc) :=
  (emits_putCL 2).seq ((emits_putCL18 138).seq ((emits_putCL18 117).seq ((emits_putCL 3).seq ((emits_zeroGap (xc - 257)).seq
    ((emits_putCL 3).seq ((emits_zeroGap (284 - xc)).seq ((emits_putCL 1).seq ((emits_putCL 1).seq (emits_putCL 0)))))))))

/-! ### The alignment (R90) -/

/-- 1 when a half pair is needed after `k` bits (R90). -/
def owedCount (k : Nat) : Nat := k % 2

/-- The iterations of the loop of R90 after `k` bits and the half pair. -/
def loopCount (k : Nat) : Nat := padCount (k + owedCount k) / 2

theorem zrAlignLoop_eq (cap : Option Nat) (fuel : Nat) (rem : Nat) (owed : Bool) (xs : List Bool) (he : xs.length % 2 = 0)
    (hf : padCount xs.length / 2 ≤ fuel) (hr : 258 * (padCount xs.length / 2) ≤ rem) :
    zrAlignLoop cap fuel ⟨rem, owed, packed xs⟩
      = (putBits cap (List.replicate (padCount xs.length) false) (packed xs)).map
          (fun w => ⟨rem - 258 * (padCount xs.length / 2), owed, w⟩) := by
  induction fuel generalizing rem xs with
  | zero =>
    have hp : padCount xs.length = 0 := by simp only [padCount] at hf ⊢; omega
    simp [hp, zrAlignLoop, putBits, Except.map]
  | succ fuel ih =>
    rw [zrAlignLoop]
    simp only [aligned_packed]
    by_cases h0 : xs.length % 8 = 0
    · have hp : padCount xs.length = 0 := by simp only [padCount]; omega
      simp [h0, hp, putBits, Except.map]
    · have hl : (xs ++ [false, false]).length = xs.length + 2 := by simp
      have hp : padCount xs.length = 2 + padCount (xs ++ [false, false]).length := by
        simp only [padCount, hl]; omega
      have hb : fieldBits 0 2 = [false, false] := by decide
      have hu : unit258 = 258 := rfl
      simp only [h0, decide_false, Bool.false_eq_true, if_false, hu]
      have hlt : 258 ≤ rem := by omega
      simp only [hlt, if_true]
      have hih := ih (rem - 258) (xs ++ [false, false]) (by omega) (by omega) (by omega)
      rw [show List.replicate (padCount xs.length) false
          = [false, false] ++ List.replicate (padCount (xs ++ [false, false]).length) false by
        rw [hp, List.replicate_add]; rfl, putBits_append, push, hb]
      rw [putBits_packed cap [false, false] xs]
      by_cases hs : hasSpace cap (xs.length / 8) ((xs.length % 8 + [false, false].length) / 8) = true
      · rw [if_pos hs]
        simp only [Except.bind]
        rw [hih]
        have hrem : rem - 258 - 258 * (padCount (xs ++ [false, false]).length / 2) = rem - 258 * (padCount xs.length / 2) := by omega
        rw [hrem]
      · rw [if_neg hs]
        rfl

/-- Step 5 (R90) on a packing, for a run long enough: the literal, the half pair and the loop push constant bits, and the units they
stand for are taken off. -/
theorem zrAlign_eq (cap : Option Nat) (n xc : Nat) (xs : List Bool) (hn : 1032 < n) :
    zrAlign cap n xc (packed xs)
      = (putBits cap ([true, false] ++ List.replicate (owedCount (xs.length + 2) + 2 * loopCount (xs.length + 2)) false) (packed xs)).map
          (fun w => ⟨n - 1 - 258 * (owedCount (xs.length + 2) + loopCount (xs.length + 2)),
            decide (owedCount (xs.length + 2) = 1), w⟩) := by
  have hll0 : codeBits (llTable xc) 0 = [true, false] := rfl
  have hbit : fieldBitsRev 0b0 1 = [false] := by decide
  have hu : unit258 = 258 := rfl
  have hput := emits_putCode (llTable xc) 0 cap xs
  simp only [hll0] at hput
  simp only [zrAlign, hput]
  rw [putBits_append, putBits_packed cap [true, false] xs]
  by_cases hs : hasSpace cap (xs.length / 8) ((xs.length % 8 + [true, false].length) / 8) = true
  case neg => simp only [hs]; rfl
  rw [if_pos hs]
  generalize hys : xs ++ [true, false] = ys
  have hl : xs.length + 2 = ys.length := by rw [← hys]; simp
  rw [hl]
  have hlc : loopCount ys.length ≤ 3 := by simp only [loopCount, padCount]; omega
  simp only [bind, Except.bind, zrHalfPair, packed_cnt, hu]
  have hle : 258 ≤ n - 1 := by omega
  by_cases ho : ys.length % 2 = 1
  · have ho2 : ys.length % 8 % 2 = 1 := by omega
    simp only [ho2, if_true, hle, pushRev, hbit]
    have hoc : owedCount ys.length = 1 := ho
    have hl1 : (ys ++ [false]).length = ys.length + 1 := by simp
    have hpl : padCount (ys ++ [false]).length = 2 * loopCount ys.length := by
      simp only [loopCount, hoc, padCount, hl1]; omega
    rw [hoc, List.replicate_add, putBits_append, List.replicate_one, putBits_packed cap [false]]
    by_cases hs2 : hasSpace cap (ys.length / 8) ((ys.length % 8 + [false].length) / 8) = true
    case neg => simp only [hs2]; rfl
    rw [if_pos hs2]
    simp only [pure, Except.pure, Except.bind]
    rw [zrAlignLoop_eq cap 3 _ _ _ (by rw [hl1]; omega) (by rw [hpl]; omega) (by rw [hpl]; omega), hpl]
    have hrem : n - 1 - 258 - 258 * (2 * loopCount ys.length / 2) = n - 1 - 258 * (1 + loopCount ys.length) := by omega
    rw [hrem]; rfl
  · have ho2 : ¬ (ys.length % 8 % 2 = 1) := by omega
    have hoc : owedCount ys.length = 0 := by simp only [owedCount]; omega
    have hpl : padCount ys.length = 2 * loopCount ys.length := by
      simp only [loopCount, hoc, padCount]; omega
    simp only [ho2, if_false, hoc, Nat.zero_add]
    rw [zrAlignLoop_eq cap 3 _ _ _ (by omega) (by rw [hpl]; omega) (by rw [hpl]; omega), hpl]
    have hrem : n - 1 - 258 * (2 * loopCount ys.length / 2) = n - 1 - 258 * loopCount ys.length := by omega
    rw [hrem]; rfl

/-! ### The preamble (R88 to R90) -/

/-- Header and trees. -/
def zrHeadBits (xc : Nat) : List Bool := headerBits ++ treeBits xc

/-- `o` of R94: 1 when the distance bit of a pair is owed. -/
def zrOwed (xc : Nat) : Nat := owedCount ((zrHeadBits xc).length + 2)

/-- `p` of R94: the iterations of the alignment loop. -/
def zrLoops (xc : Nat) : Nat := loopCount ((zrHeadBits xc).length + 2)

/-- All the bits of the preamble. -/
def preBits (xc : Nat) : List Bool :=
  zrHeadBits xc ++ ([true, false] ++ List.replicate (zrOwed xc + 2 * zrLoops xc) false)

theorem preBits_aligned (xc : Nat) : (preBits xc).length % 8 = 0 := by
  simp only [preBits, List.length_append, List.length_replicate, zrOwed, zrLoops, loopCount, owedCount, padCount, List.length_cons,
    List.length_nil]
  omega

theorem zrLoops_le (xc : Nat) : zrLoops xc ≤ 3 := by simp only [zrLoops, loopCount, padCount]; omega

theorem zrOwed_le (xc : Nat) : zrOwed xc ≤ 1 := by simp only [zrOwed, owedCount]; omega

/-- The preamble of a large run (R88 to R90). -/
theorem zrPreamble_eq (cap : Option Nat) (n : Nat) (ex : Excess) (w : BitWriter) (hn : 1032 < n) :
    zrPreamble cap n ex w
      = if hasSpace cap 0 ((preBits ex.xc).length / 8) then
          .ok (packBytes (preBits ex.xc),
            ⟨n - 1 - 258 * (zrOwed ex.xc + zrLoops ex.xc), decide (zrOwed ex.xc = 1), packed (preBits ex.xc)⟩)
        else .error .bwOverflow := by
  have h1 : (putBits cap headerBits (packed []) >>= fun w => zrTrees cap ex.xc w)
      = putBits cap (zrHeadBits ex.xc) (packed []) := putBits_packed_bind (emits_zrTrees ex.xc cap _)
  have h2 : zrPreamble cap n ex w = (putBits cap (zrHeadBits ex.xc) (packed []) >>= fun w => zrAlign cap n ex.xc w) >>= fun k => do
      let b ← extract k.bw
      return (b, k) := by
    rw [← h1]; simp only [zrPreamble, zrHeader_eq, bind_assoc]
  have h3 : (putBits cap (zrHeadBits ex.xc) (packed []) >>= fun w => zrAlign cap n ex.xc w)
      = (putBits cap (preBits ex.xc) (packed [])).map
          (fun w => ⟨n - 1 - 258 * (zrOwed ex.xc + zrLoops ex.xc), decide (zrOwed ex.xc = 1), w⟩) := by
    rw [preBits, putBits_append, putBits_packed cap (zrHeadBits ex.xc)]
    split
    · simp only [bind, Except.bind, List.nil_append]
      rw [zrAlign_eq cap n ex.xc _ hn]; rfl
    · rfl
  rw [h2, h3, putBits_packed]
  simp only [List.length_nil, Nat.zero_div, Nat.zero_mod, Nat.zero_add, List.nil_append]
  split
  · simp only [Except.map, bind, Except.bind, extract_packed, preBits_aligned, if_true, pure, Except.pure]
  · rfl

/-! ### The postamble (R92) -/

/-- The bits of the excess (R92). -/
def excessBits (ex : Excess) : List Bool :=
  if ex.num < 3 then (List.replicate ex.num [true, false]).flatten
  else [true, true, true] ++ (fieldBits ex.xev ex.xeb ++ [false])

/-- The bits of the postamble before the pad: the owed bit, `q` pairs, the excess, end-of-block. -/
def postCore (ex : Excess) (owed : Bool) (q : Nat) : List Bool :=
  (if owed then [false] else []) ++ (List.replicate (2 * q) false ++ (excessBits ex ++ [true, true, false]))

/-- All the bits of the postamble. -/
def postBits (ex : Excess) (owed : Bool) (q : Nat) : List Bool :=
  postCore ex owed q ++ alignBits (postCore ex owed q).length

theorem postBits_aligned (ex : Excess) (owed : Bool) (q : Nat) : (postBits ex owed q).length % 8 = 0 := by
  rw [postBits, List.length_append]; exact alignBits_aligned _

theorem emits_putCodeTimes (table : List CodeRow) (sym k : Nat) :
    Emits (fun cap => putCodeTimes cap table sym k) (fun _ => (List.replicate k (codeBits table sym)).flatten) := by
  induction k with
  | zero => exact emits_ok
  | succ k ih =>
    refine (((emits_putCode table sym).seq ih).of_eq fun cap w => ?_).congr fun _ => ?_
    · simp only [putCodeTimes, bind, Except.bind]
      cases putCode cap table sym w <;> rfl
    · simp [List.replicate_succ]

theorem emits_zrPairs (xc q : Nat) : Emits (fun cap => zrPairs cap xc q) (fun _ => List.replicate (2 * q) false) := by
  induction q with
  | zero => exact emits_ok
  | succ q ih =>
    refine (((emits_putCode (llTable xc) 285).seq ((emits_putCode distTable 0).seq ih)).of_eq fun cap w => rfl).congr fun k => ?_
    have h1 : codeBits (llTable xc) 285 = [false] := rfl
    have h2 : codeBits distTable 0 = [false] := by decide
    rw [h1, h2, show 2 * (q + 1) = 1 + (1 + 2 * q) by omega, List.replicate_add, List.replicate_add]
    rfl

theorem emits_zrExcess (ex : Excess) : Emits (fun cap => zrExcess cap ex ex.num) (fun _ => excessBits ex) := by
  have hll0 : codeBits (llTable ex.xc) 0 = [true, false] := rfl
  have h7 : fieldBitsRev 0b111 3 = [true, true, true] := by decide
  have h2 : codeBits distTable 0 = [false] := by decide
  intro cap xs
  simp only [zrExcess, excessBits]
  split
  · rw [← hll0]; exact emits_putCodeTimes _ _ _ cap xs
  · have := ((emits_pushRev 0b111 3).seq ((emits_push ex.xev ex.xeb).seq (emits_putCode distTable 0))) cap xs
    rw [h7, h2] at this
    exact this

/-- The postamble of a large run (R92), when what the middle left is the left-over units and the excess. -/
theorem zrPostamble_eq (cap : Option Nat) (ex : Excess) (owed : Bool) (rem : Nat) (w : BitWriter) (hr : rem % 258 = ex.num) :
    zrPostamble cap ex owed rem w
      = if hasSpace cap 0 ((postBits ex owed (rem / 258)).length / 8) then
          .ok (packBytes (postBits ex owed (rem / 258)), BitWriter.empty)
        else .error .bwOverflow := by
  have hu : unit258 = 258 := rfl
  have hsub : rem - 258 * (rem / 258) = ex.num := by omega
  have h2 : codeBits distTable 0 = [false] := by decide
  have h256 : codeBits (llTable ex.xc) 256 = [true, true, false] := rfl
  have howed : Emits (fun cap w => if owed then putCode cap distTable 0 w else .ok w) (fun _ => if owed then [false] else []) := by
    intro cap xs
    cases owed
    · exact emits_ok cap xs
    · simp only [if_true]; rw [← h2]; exact emits_putCode distTable 0 cap xs
  have hem := howed.seq ((emits_zrPairs ex.xc (rem / 258)).seq ((emits_zrExcess ex).seq ((emits_putCode (llTable ex.xc) 256).seq
    emits_alignStored)))
  have h := hem cap []
  simp only [packed_nil, h256, List.length_nil] at h
  rw [← emit_extract (postBits_aligned ex owed (rem / 258))]
  have hs : ∀ k, k = (postCore ex owed (rem / 258)).length → postBits ex owed (rem / 258)
      = (if owed then [false] else []) ++ (List.replicate (2 * (rem / 258)) false ++ (excessBits ex ++ ([true, true, false] ++ alignBits k))) := by
    intro k hk; rw [postBits, ← hk]; simp only [postCore, List.append_assoc]
  rw [hs _ ?_, ← h]
  · simp only [zrPostamble, clearWriter_eq, hu, hsub, if_true, bind_assoc]
    cases owed <;> rfl
  · simp only [postCore, List.length_append]; omega

/-! ### The excess (R81, R87) -/

/-- The table answers for every match length (R81). -/
theorem lengthCode_ok {L : Nat} (h1 : 3 ≤ L) (h2 : L ≤ 258) :
    lengthCode L = .ok (lengthCodeClosed L) ∧ 257 ≤ (lengthCodeClosed L).code ∧ (lengthCodeClosed L).code ≤ 285
      ∧ (lengthCodeClosed L).eb ≤ 5 ∧ (L ≤ 257 → (lengthCodeClosed L).code ≤ 284) := by
  have : ∀ L < 259, 3 ≤ L → lengthCode L = .ok (lengthCodeClosed L) ∧ 257 ≤ (lengthCodeClosed L).code
      ∧ (lengthCodeClosed L).code ≤ 285 ∧ (lengthCodeClosed L).eb ≤ 5 ∧ (L ≤ 257 → (lengthCodeClosed L).code ≤ 284) := by
    decide +kernel
  exact this L (by omega) h1

/-- The excess of a run (R87). -/
def excessOf (n : Nat) : Excess :=
  if 3 ≤ (n - 1) % 258 then
    ⟨(n - 1) % 258, (lengthCodeClosed ((n - 1) % 258)).code, (lengthCodeClosed ((n - 1) % 258)).eb, (lengthCodeClosed ((n - 1) % 258)).ev⟩
  else ⟨(n - 1) % 258, 257, 0, 0⟩

theorem selectExcess_eq (n : Nat) : selectExcess n = .ok (excessOf n) := by
  have hu : unit258 = 258 := rfl
  simp only [selectExcess, excessOf, hu]
  split
  · rw [(lengthCode_ok (by assumption) (by omega)).1]
  · rfl

theorem excessOf_num (n : Nat) : (excessOf n).num = (n - 1) % 258 := by
  simp only [excessOf]; split <;> rfl

theorem excessOf_xc (n : Nat) : 257 ≤ (excessOf n).xc ∧ (excessOf n).xc ≤ 284 := by
  simp only [excessOf]
  split
  · have := lengthCode_ok (L := (n - 1) % 258) (by assumption) (by omega)
    exact ⟨this.2.1, this.2.2.2.2 (by omega)⟩
  · simp

/-! ### The whole large path (R93) -/

/-- Units absorbed by the alignment, `o + p` (R94, R96). -/
def zrAbsorbed (n : Nat) : Nat := zrOwed (excessOf n).xc + zrLoops (excessOf n).xc

/-- `zero_count` (R91, R96). -/
def zrCount (n : Nat) : Nat := (n - 1 - 258 * zrAbsorbed n) / 1032

/-- `q` of R92. -/
def zrLeft (n : Nat) : Nat := (n - 1 - 258 * zrAbsorbed n) % 1032 / 258

/-- The large path never fails an assertion: it answers its TRIPLE with the writer cleared, or BwOverflow. -/
theorem zeroRunLarge_eq (cap : Option Nat) (n : Nat) (w : BitWriter) (hn : 1032 < n) :
    zeroRunLarge cap n w
      = if hasSpace cap 0 ((preBits (excessOf n).xc).length / 8)
            ∧ hasSpace cap 0 ((postBits (excessOf n) (decide (zrOwed (excessOf n).xc = 1)) (zrLeft n)).length / 8) then
          .ok (.triple (packBytes (preBits (excessOf n).xc)) (zrCount n)
            (packBytes (postBits (excessOf n) (decide (zrOwed (excessOf n).xc = 1)) (zrLeft n))), BitWriter.empty)
        else .error .bwOverflow := by
  have hu : unit258 * group4 = 1032 := rfl
  simp only [zeroRunLarge, selectExcess_eq, bind, Except.bind]
  rw [zrPreamble_eq cap n _ w hn]
  have hl := zrLoops_le (excessOf n).xc
  have ho := zrOwed_le (excessOf n).xc
  by_cases h1 : hasSpace cap 0 ((preBits (excessOf n).xc).length / 8) = true
  · simp only [h1, if_true, true_and, zrNumRepeats, hu]
    have hk : (n - 1 - 258 * (zrOwed (excessOf n).xc + zrLoops (excessOf n).xc))
        - (n - 1 - 258 * (zrOwed (excessOf n).xc + zrLoops (excessOf n).xc)) / 1032 * 1032
        = (n - 1 - 258 * (zrOwed (excessOf n).xc + zrLoops (excessOf n).xc)) % 1032 := by omega
    rw [hk, zrPostamble_eq]
    · simp only [zrLeft, zrAbsorbed, zrCount]
      by_cases h2 : hasSpace cap 0 ((postBits (excessOf n) (decide (zrOwed (excessOf n).xc = 1))
          ((n - 1 - 258 * (zrOwed (excessOf n).xc + zrLoops (excessOf n).xc)) % 1032 / 258)).length / 8) = true
      · simp only [h2, if_true]; rfl
      · simp only [h2]; rfl
    · rw [excessOf_num]; omega
  · simp [h1]

/-- A run on either path answers with the writer cleared, or BwOverflow (R80, R93). -/
theorem zeroRunEncode_cases (cap : Option Nat) (n : Nat) (w : BitWriter) :
    (∃ e, zeroRunEncode cap n w = .ok (e, BitWriter.empty)) ∨ zeroRunEncode cap n w = .error .bwOverflow := by
  simp only [zeroRunEncode]
  split
  · rw [fixedEncode_eq]
    by_cases h : hasSpace cap 0 ((fixedStream (zeros n)).length / 8) = true
    · rw [if_pos h]; exact .inl ⟨_, rfl⟩
    · rw [if_neg h]; exact .inr rfl
  · rw [zeroRunLarge_eq cap n w (by simp only [zrThreshold] at *; omega)]
    split
    · exact .inl ⟨_, rfl⟩
    · exact .inr rfl

end Sys2Proof.Machine
end

