-- ==== Sys2Proof/Laws/Formats.lean ====
section
/-! SUPPORT. The bits the encoders push (Laws/Encoders.lean, Laws/ZeroRun.lean) are the bit strings that Safety.lean reads from the format
sections of the spec. -/

namespace Sys2Proof.Machine

theorem msbFirst_eq (code len : Nat) : msbFirst code len = fieldBitsRev code len := by
  rw [fieldBitsRev_eq_reverse]
  apply List.ext_getElem
  · simp [msbFirst, fieldBits]
  · intro i h1 h2
    have hi : i < len := by simpa [msbFirst] using h1
    simp only [fieldBits, truncated, msbFirst, List.getElem_reverse, List.getElem_map, List.getElem_range, List.length_map,
      List.length_range, Nat.testBit_mod_two_pow]
    rw [decide_eq_true (by omega), Bool.true_and]

theorem lsbFirst_eq (value len : Nat) : lsbFirst value len = fieldBits value len := (fieldBits_eq value len).symm

theorem literalStream_eq (x : Byte) : literalStream x = literalBits x := by
  simp only [literalStream, literalBits, fixedLiteralCode, msbFirst_eq]
  split <;> rfl

theorem storedPad_eq (k : Nat) : storedPad k = alignBits k := by
  simp only [storedPad, alignBits, padCount]
  split
  · rfl
  · have : 8 * ((k % 8 + 3 + 7) / 8) - k % 8 = 3 + (8 - (k + 3) % 8) % 8 := by omega
    rw [this]

theorem fixedBlockCore_eq (data : List Byte) : fixedBlockCore data = fixedCore data := by
  have h : literalStream = literalBits := funext literalStream_eq
  rw [fixedBlockCore, fixedCore, h]; rfl

theorem fixedBlockStream_eq (data : List Byte) : fixedBlockStream data = fixedStream data := by
  rw [fixedBlockStream, fixedStream, fixedBlockCore_eq, storedPad_eq]

theorem zrHeaderStream_eq : zrHeaderStream = headerBits := by decide

theorem gapStream_eq (g : Nat) : gapStream g = gapBits g := by
  have : bitString [1, 0] = codeBits clTable 18 := by decide
  simp only [gapStream, gapBits, lsbFirst_eq, cl18Bits, this]

theorem zrTreeStream_eq (xc : Nat) : zrTreeStream xc = treeBits xc := by
  have h1 : bitString [1, 1, 0, 1, 0, 1, 1, 1, 1, 1, 1, 1, 1, 0, 0, 1, 0, 1, 0, 1, 1, 1, 1, 1]
      = codeBits clTable 2 ++ (cl18Bits 138 ++ (cl18Bits 117 ++ codeBits clTable 3)) := by decide
  have h2 : bitString [1, 1, 1] = codeBits clTable 3 := by decide
  have h3 : bitString [0, 1, 0, 1, 0, 0] = codeBits clTable 1 ++ (codeBits clTable 1 ++ codeBits clTable 0) := by decide
  simp only [zrTreeStream, treeBits, gapStream_eq, h1, h2, h3, List.append_assoc]

theorem treesEnd_eq (xc : Nat) : treesEnd xc = (zrHeadBits xc).length := by
  rw [treesEnd, zrHeadBits, zrHeaderStream_eq, zrTreeStream_eq]

theorem owedUnits_eq (xc : Nat) : owedUnits xc = zrOwed xc := by rw [owedUnits, zrOwed, treesEnd_eq]; rfl

theorem loopUnits_eq (xc : Nat) : loopUnits xc = zrLoops xc := by
  rw [loopUnits, zrLoops, owedUnits_eq, treesEnd_eq]; rfl

theorem preambleStream_eq (xc : Nat) : preambleStream xc = preBits xc := by
  have h : bitString [1, 0] = [true, false] := rfl
  rw [preambleStream, preBits, zrHeadBits, zrHeaderStream_eq, zrTreeStream_eq, owedUnits_eq, loopUnits_eq, h]
  simp only [List.append_assoc]

theorem excessOf_code (n : Nat) : (excessOf n).xc = (excessSymbol n).code ∧ (excessOf n).xeb = (excessSymbol n).eb
    ∧ (excessOf n).xev = (excessSymbol n).ev := by
  by_cases h : 3 ≤ (n - 1) % 258 <;> simp [excessOf, excessSymbol, numExcess, h]

theorem absorbedUnits_eq (n : Nat) : absorbedUnits n = zrAbsorbed n := by
  rw [absorbedUnits, zrAbsorbed, owedUnits_eq, loopUnits_eq, (excessOf_code n).1]

theorem middleCount_eq (n : Nat) : middleCount n = zrCount n := by rw [middleCount, zrCount, absorbedUnits_eq]

theorem leftUnits_eq (n : Nat) : leftUnits n = zrLeft n := by rw [leftUnits, zrLeft, absorbedUnits_eq]

theorem excessStream_eq (n : Nat) : excessStream n = excessBits (excessOf n) := by
  obtain ⟨_, h2, h3⟩ := excessOf_code n
  have e1 : bitString [1, 0] = [true, false] := rfl
  have e2 : bitString [1, 1, 1] = [true, true, true] := rfl
  have e3 : bitString [0] = [false] := rfl
  simp only [excessStream, excessBits, excessOf_num, numExcess, h2, h3, lsbFirst_eq, e1, e2, e3, List.append_assoc]

theorem postambleCore_eq (n : Nat) :
    postambleCore n = postCore (excessOf n) (decide (zrOwed (excessOf n).xc = 1)) (zrLeft n) := by
  have e : bitString [1, 1, 0] = [true, true, false] := rfl
  rw [postambleCore, postCore, owedUnits_eq, ← (excessOf_code n).1, leftUnits_eq, excessStream_eq, e]
  have hle := zrOwed_le (excessOf n).xc
  by_cases h : zrOwed (excessOf n).xc = 1
  · simp [h]
  · have h0 : zrOwed (excessOf n).xc = 0 := by omega
    simp [h0]

theorem postambleStream_eq (n : Nat) :
    postambleStream n = postBits (excessOf n) (decide (zrOwed (excessOf n).xc = 1)) (zrLeft n) := by
  rw [postambleStream, postBits, postambleCore_eq, storedPad_eq]

end Sys2Proof.Machine
end

