-- ==== Sys2Proof/Laws/Inflate.lean ====
section
/-! SUPPORT. What the reference decoder (Machine/Inflate.lean) reads from the bits the encoders push, one lemma per function: a field, a symbol
of a prefix-free table, a run of literals, the empty stored block, one block, a sequence of blocks. -/

namespace Sys2Proof.Machine

/-- A field of `k` bits in front is read whole. -/
theorem takeBits_append (xs rest : List Bool) : takeBits xs.length (xs ++ rest) = some (bitsToNat xs, rest) := by
  simp [takeBits]

/-- A pushed field is read back, truncated (R31, R61). -/
theorem takeBits_fieldBits (v k : Nat) (rest : List Bool) : takeBits k (fieldBits v k ++ rest) = some (v % 2 ^ k, rest) := by
  have h := takeBits_append (fieldBits v k) rest
  rw [fieldBits_length] at h
  rw [h]
  congr 2
  apply Nat.eq_of_testBit_eq
  intro i
  rw [testBit_bitsToNat, Nat.testBit_mod_two_pow]
  by_cases hi : i < k <;> simp [fieldBits, truncated, List.getD, hi, Nat.testBit_mod_two_pow]

/-- The bits of a row's code. -/
def rowBits (r : CodeRow) : List Bool := fieldBitsRev r.code r.length

/-- No code of the table begins another. -/
def PrefixFree (table : List CodeRow) : Prop :=
  ∀ a ∈ table, ∀ b ∈ table, (rowBits a).isPrefixOf (rowBits b) = true → a = b

/-- A code that begins another is its leading bits. -/
theorem code_of_prefix {a b : CodeRow} (h : (rowBits a).isPrefixOf (rowBits b) = true) :
    a.length ≤ b.length ∧ a.code % 2 ^ a.length = b.code % 2 ^ b.length / 2 ^ (b.length - a.length) := by
  obtain ⟨t, ht⟩ := List.isPrefixOf_iff_prefix.mp h
  have hlen := congrArg List.length ht
  simp only [List.length_append, rowBits, fieldBitsRev_length] at hlen
  refine ⟨by omega, Nat.eq_of_testBit_eq fun i => ?_⟩
  rw [Nat.testBit_div_two_pow, Nat.testBit_mod_two_pow, Nat.testBit_mod_two_pow]
  by_cases hi : i < a.length
  · have hg := congrArg (fun l => l.getD (a.length - 1 - i) false) ht
    simp only [List.getD, List.getElem?_append, rowBits, fieldBitsRev_length, if_pos (show a.length - 1 - i < a.length by omega)] at hg
    simp only [fieldBitsRev, truncated, List.getElem?_map, List.getElem?_reverse, List.length_range,
      show a.length - 1 - i < a.length by omega, show a.length - 1 - i < b.length by omega, List.getElem?_range,
      Option.map_some, Option.getD_some, Nat.testBit_mod_two_pow,
      show a.length - 1 - (a.length - 1 - i) < a.length by omega, show b.length - 1 - (a.length - 1 - i) < b.length by omega,
      decide_true, Bool.true_and] at hg
    rw [show a.length - 1 - (a.length - 1 - i) = i by omega, show b.length - 1 - (a.length - 1 - i) = i + (b.length - a.length) by omega] at hg
    simp only [hi, decide_true, Bool.true_and, show i + (b.length - a.length) < b.length by omega]
    exact hg
  · simp only [hi, decide_false, Bool.false_and]
    rw [decide_eq_false (by omega), Bool.false_and]

theorem isPrefixOf_append_false {a b : List Bool} (rest : List Bool) (h1 : a.isPrefixOf b = false) (h2 : b.isPrefixOf a = false) :
    a.isPrefixOf (b ++ rest) = false := by
  induction a generalizing b with
  | nil => simp at h1
  | cons x xs ih =>
    cases b with
    | nil => simp at h2
    | cons y ys =>
      simp only [List.isPrefixOf, List.cons_append, Bool.and_eq_false_imp, beq_iff_eq] at h1 h2 ⊢
      exact fun he => ih (h1 he) (h2 he.symm)

/-- In a prefix-free table the code of a row is read as its symbol, whatever follows. -/
theorem readSym_row {table : List CodeRow} (hp : PrefixFree table) {r : CodeRow} (hr : r ∈ table) (rest : List Bool) :
    readSym table (rowBits r ++ rest) = some (r.symbol, rest) := by
  have hf : table.find? (fun r' => (rowBits r').isPrefixOf (rowBits r ++ rest)) = some r := by
    have key : ∀ t : List CodeRow, (∀ x ∈ t, x ∈ table) → r ∈ t →
        t.find? (fun r' => (rowBits r').isPrefixOf (rowBits r ++ rest)) = some r := by
      intro t
      induction t with
      | nil => intro _ h; cases h
      | cons x xs ih =>
        intro hsub hmem
        by_cases hx : x = r
        · subst hx; simp
        · have hpx : ∀ a ∈ table, ∀ b ∈ table, a ≠ b → (rowBits a).isPrefixOf (rowBits b) = false := by
            intro a ha b hb hab
            by_contra h
            exact hab (hp a ha b hb (by simpa using h))
          have hxt := hsub x (by simp)
          have h0 := isPrefixOf_append_false rest (hpx x hxt r hr hx) (hpx r hr x hxt (Ne.symm hx))
          rw [List.find?_cons, h0]
          exact ih (fun y hy => hsub y (by simp [hy])) (by simpa [Ne.symm hx] using hmem)
    exact key table (fun _ h => h) hr
  have hl : r.length = (rowBits r).length := by simp [rowBits]
  rw [readSym]
  show (match table.find? (fun r' => (rowBits r').isPrefixOf (rowBits r ++ rest)) with
    | some r' => some (r'.symbol, (rowBits r ++ rest).drop r'.length)
    | none => none) = _
  rw [hf]
  simp [hl]

/-! ### Fixed blocks -/

theorem fixedTable_cases {r : CodeRow} (h : r ∈ fixedTable) :
    (r.symbol ≤ 143 ∧ r.length = 8 ∧ r.code = 48 + r.symbol)
      ∨ (144 ≤ r.symbol ∧ r.symbol ≤ 255 ∧ r.length = 9 ∧ r.code = 256 + r.symbol) ∨ r = ⟨256, 7, 0⟩ := by
  rw [fixedTable, List.mem_append] at h
  rcases h with h | h
  · obtain ⟨x, hx, rfl⟩ := List.mem_map.mp h
    have := List.mem_range.mp hx
    simp only [fixedLiteralCode]
    split
    · exact .inl ⟨by assumption, rfl, rfl⟩
    · exact .inr (.inl ⟨by omega, by omega, rfl, by simp only []; omega⟩)
  · exact .inr (.inr (by simpa using h))

theorem fixedTable_prefixFree : PrefixFree fixedTable := by
  intro a ha b hb h
  obtain ⟨h1, h2⟩ := code_of_prefix h
  have ca := fixedTable_cases ha
  have cb := fixedTable_cases hb
  obtain ⟨sa, la, na⟩ := a
  obtain ⟨sb, lb, nb⟩ := b
  simp only [CodeRow.mk.injEq] at *
  rcases ca with ⟨a1, rfl, rfl⟩ | ⟨a1, a2, rfl, rfl⟩ | ⟨rfl, rfl, rfl⟩ <;>
    rcases cb with ⟨b1, rfl, rfl⟩ | ⟨b1, b2, rfl, rfl⟩ | ⟨rfl, rfl, rfl⟩ <;> simp at h1 h2 ⊢ <;> omega

/-- A literal of the fixed code (R54). -/
theorem readSym_literal (x : Byte) (rest : List Bool) : readSym fixedTable (literalBits x ++ rest) = some (x.toNat, rest) := by
  have hr : (⟨x.toNat, (fixedLiteralCode x.toNat).2, (fixedLiteralCode x.toNat).1⟩ : CodeRow) ∈ fixedTable := by
    rw [fixedTable]
    refine List.mem_append_left _ (List.mem_map.mpr ⟨x.toNat, List.mem_range.mpr x.isLt, rfl⟩)
  exact readSym_row fixedTable_prefixFree hr rest

/-- End-of-block of the fixed code. -/
theorem readSym_fixedEnd (rest : List Bool) : readSym fixedTable (List.replicate 7 false ++ rest) = some (256, rest) := by
  have hr : (⟨256, 7, 0⟩ : CodeRow) ∈ fixedTable := by
    rw [fixedTable]; exact List.mem_append_right _ (by simp)
  exact readSym_row fixedTable_prefixFree hr rest

/-- Literals up to end-of-block: the bytes, in order. -/
theorem inflateData_literals (data out : List Byte) (rest : List Bool) (dist : List CodeRow) (fuel : Nat) (hf : data.length < fuel) :
    inflateData fixedTable dist fuel out (data.flatMap literalBits ++ (List.replicate 7 false ++ rest)) = some (out ++ data, rest) := by
  induction data generalizing out fuel with
  | nil =>
    obtain ⟨f, rfl⟩ : ∃ f, fuel = f + 1 := ⟨fuel - 1, by omega⟩
    simp only [List.flatMap_nil, List.nil_append, List.append_nil, inflateData, readSym_fixedEnd]
    simp
  | cons x xs ih =>
    simp only [List.length_cons] at hf
    obtain ⟨f, rfl⟩ : ∃ f, fuel = f + 1 := ⟨fuel - 1, by omega⟩
    have hx := x.isLt
    simp only [List.flatMap_cons, List.append_assoc, inflateData, readSym_literal]
    rw [if_pos hx, ih (out ++ [BitVec.ofNat 8 x.toNat]) f (by omega)]
    simp

theorem literalBits_pos (x : Byte) : 1 ≤ (literalBits x).length := by
  simp only [literalBits, fieldBitsRev_length, fixedLiteralCode]; split <;> simp

theorem length_le_flatMap_literalBits (data : List Byte) : data.length ≤ (data.flatMap literalBits).length := by
  induction data with
  | nil => simp
  | cons x xs ih => have := literalBits_pos x; simp only [List.flatMap_cons, List.length_append, List.length_cons]; omega

/-- The block that FE_ENCODE makes, before its pad (R72): not final, and its bytes are the data. -/
theorem inflateBlock_fixed (data : List Byte) (rest : List Bool) :
    inflateBlock (fixedCore data ++ rest) = some (false, data, rest) := by
  have hb : [false] = fieldBits 0 1 := by decide
  have hb2 : [true, false] = fieldBits 1 2 := by decide
  have hlen := length_le_flatMap_literalBits data
  simp only [fixedCore, List.append_assoc]
  rw [inflateBlock, hb2, hb, takeBits_fieldBits]
  simp only [bind, Option.bind, takeBits_fieldBits]
  simp only [Nat.reduceMod, Nat.reducePow]
  rw [inflateData_literals _ _ _ _ _ (by simp only [List.length_append]; omega)]
  simp

/-! ### The empty stored block -/

/-- The pad of R71 is one empty block that is not final; what follows it is a whole number of bytes. -/
theorem inflateBlock_pad (k : Nat) (rest : List Bool) (hk : k % 8 ≠ 0) (hr : rest.length % 8 = 0) :
    inflateBlock (alignBits k ++ rest) = some (false, [], rest) := by
  have hb : fieldBits 0 1 ++ fieldBits 0 2 = List.replicate 3 false := by decide
  have h0 : List.replicate 16 false = fieldBits 0 16 := by decide
  have h1 : List.replicate 16 true = fieldBits 0xFFFF 16 := by decide
  simp only [alignBits, if_neg hk]
  rw [List.replicate_add, ← hb, h0, h1]
  simp only [List.append_assoc]
  rw [inflateBlock, takeBits_fieldBits]
  simp only [bind, Option.bind, takeBits_fieldBits, Nat.reduceMod, Nat.reducePow]
  have hp : (List.replicate (padCount (k + 3)) false ++ (fieldBits 0 16 ++ (fieldBits 0xFFFF 16 ++ rest))).length % 8
      = (List.replicate (padCount (k + 3)) false).length := by
    simp only [List.length_append, List.length_replicate, fieldBits_length, padCount]; omega
  rw [inflateStored, hp, List.drop_left]
  simp [bind, takeBits_fieldBits, packBytes]

/-! ### Sequences of blocks -/

/-- One non-final block in front. -/
theorem inflateBlocks_step {untilFinal : Bool} {fuel : Nat} {bits rest : List Bool} {out : List Byte} (hne : bits ≠ [])
    (h : inflateBlock bits = some (false, out, rest)) :
    inflateBlocks untilFinal (fuel + 1) bits
      = (inflateBlocks untilFinal fuel rest).map (fun p => (out ++ p.1, p.2)) := by
  have he : bits.isEmpty = false := by simpa using hne
  simp only [inflateBlocks, he, Bool.and_false, Bool.false_eq_true, if_false, h]
  cases inflateBlocks untilFinal fuel rest <;> rfl

/-- A fixed block with its pad, then more blocks: at most two units of fuel. -/
theorem inflateBlocks_fixedStream (untilFinal : Bool) (data : List Byte) (rest : List Bool) (hr : rest.length % 8 = 0) (fuel : Nat) :
    ∃ used, used ≤ 2 ∧ 1 ≤ used ∧ inflateBlocks untilFinal (fuel + used) (fixedStream data ++ rest)
      = (inflateBlocks untilFinal fuel rest).map (fun p => (data ++ p.1, p.2)) := by
  rw [fixedStream, List.append_assoc]
  have hne : fixedCore data ++ (alignBits (fixedCore data).length ++ rest) ≠ [] := by simp [fixedCore]
  by_cases hk : (fixedCore data).length % 8 = 0
  · refine ⟨1, by decide, by decide, ?_⟩
    rw [inflateBlocks_step hne (inflateBlock_fixed data _)]
    simp [alignBits, hk]
  · refine ⟨2, by decide, by decide, ?_⟩
    rw [show fuel + 2 = (fuel + 1) + 1 from rfl, inflateBlocks_step hne (inflateBlock_fixed data _)]
    have hne2 : alignBits (fixedCore data).length ++ rest ≠ [] := by
      intro h
      have := congrArg List.length h
      simp only [alignBits, if_neg hk, List.length_append, List.length_replicate, List.length_nil] at this
      omega
    rw [inflateBlocks_step hne2 (inflateBlock_pad _ rest hk hr)]
    cases inflateBlocks untilFinal fuel rest <;> simp

end Sys2Proof.Machine
end

