-- ==== Sys2Proof/Laws/InflateZeroRun.lean ====
section
/-! SUPPORT. What the reference decoder reads from a zero-run block (R82): the canonical codes of the lengths sent, the trees, the literal, the
pairs, the excess, end-of-block. -/

namespace Sys2Proof.Machine

/-- The literal/length code lengths that the trees of a zero-run block send (R85, R89). -/
def zrLitLengths (xc : Nat) : List Nat :=
  [2] ++ (List.replicate 255 0 ++ ([3] ++ (List.replicate (xc - 257) 0 ++ ([3] ++ (List.replicate (284 - xc) 0 ++ [1])))))

theorem zrLitLengths_length (xc : Nat) (h1 : 257 ≤ xc) (h2 : xc ≤ 284) : (zrLitLengths xc).length = 286 := by
  simp only [zrLitLengths, List.length_append, List.length_replicate, List.length_cons, List.length_nil]; omega

theorem completeCode_zrLitLengths (xc : Nat) : completeCode (zrLitLengths xc) = true := by
  simp [-List.reduceReplicate, completeCode, kraftSum, zrLitLengths]

/-- Lengths of 0 take no code (R58). -/
theorem canonicalFrom_zeros (lengths rest : List Nat) (sym k : Nat) :
    canonicalFrom lengths sym (List.replicate k 0 ++ rest) = canonicalFrom lengths (sym + k) rest := by
  induction k generalizing sym with
  | zero => rfl
  | succ k ih => rw [List.replicate_succ, List.cons_append, canonicalFrom, if_pos rfl, ih]; congr 1; omega

/-- A length other than 0 takes the next code of its length (R58). -/
theorem canonicalFrom_cons {L : Nat} (hL : L ≠ 0) (lengths before rest : List Nat) (tail : List Nat) (h : lengths = before ++ tail) :
    canonicalFrom lengths before.length (L :: rest)
      = ⟨before.length, L, firstCode lengths L + before.count L⟩ :: canonicalFrom lengths (before.length + 1) rest := by
  rw [canonicalFrom, if_neg hL, h, List.take_left]

theorem canonicalCode_zrLitLengths (xc : Nat) (h1 : 257 ≤ xc) (h2 : xc ≤ 284) :
    canonicalCode (zrLitLengths xc) = [⟨0, 2, 0b10⟩, ⟨256, 3, 0b110⟩, ⟨xc, 3, 0b111⟩, ⟨285, 1, 0b0⟩] := by
  have c0 : blCount (zrLitLengths xc) 0 = 0 := rfl
  have c1 : blCount (zrLitLengths xc) 1 = 1 := by simp [-List.reduceReplicate, blCount, zrLitLengths, List.count_replicate]
  have c2 : blCount (zrLitLengths xc) 2 = 1 := by simp [-List.reduceReplicate, blCount, zrLitLengths, List.count_replicate]
  have f1 : firstCode (zrLitLengths xc) 1 = 0 := by simp [-List.reduceReplicate, firstCode, c0]
  have f2 : firstCode (zrLitLengths xc) 2 = 2 := by rw [firstCode, f1, c1]
  have f3 : firstCode (zrLitLengths xc) 3 = 6 := by rw [firstCode, f2, c2]
  have s0 := canonicalFrom_cons (L := 2) (by decide) (zrLitLengths xc) []
    (List.replicate 255 0 ++ ([3] ++ (List.replicate (xc - 257) 0 ++ ([3] ++ (List.replicate (284 - xc) 0 ++ [1])))))
    (zrLitLengths xc) rfl
  have s1 := canonicalFrom_cons (L := 3) (by decide) (zrLitLengths xc) ([2] ++ List.replicate 255 0)
    (List.replicate (xc - 257) 0 ++ ([3] ++ (List.replicate (284 - xc) 0 ++ [1])))
    ([3] ++ (List.replicate (xc - 257) 0 ++ ([3] ++ (List.replicate (284 - xc) 0 ++ [1])))) (by simp [-List.reduceReplicate, zrLitLengths])
  have s2 := canonicalFrom_cons (L := 3) (by decide) (zrLitLengths xc) ([2] ++ (List.replicate 255 0 ++ ([3] ++ List.replicate (xc - 257) 0)))
    (List.replicate (284 - xc) 0 ++ [1]) ([3] ++ (List.replicate (284 - xc) 0 ++ [1])) (by simp [-List.reduceReplicate, zrLitLengths])
  have s3 := canonicalFrom_cons (L := 1) (by decide) (zrLitLengths xc)
    ([2] ++ (List.replicate 255 0 ++ ([3] ++ (List.replicate (xc - 257) 0 ++ ([3] ++ List.replicate (284 - xc) 0)))))
    [] [1] (by simp [-List.reduceReplicate, zrLitLengths])
  have l2 : ([2] ++ (List.replicate 255 0 ++ ([3] ++ List.replicate (xc - 257) 0))).length = xc := by
    simp only [List.length_append, List.length_replicate, List.length_cons, List.length_nil]; omega
  have l3 : ([2] ++ (List.replicate 255 0 ++ ([3] ++ (List.replicate (xc - 257) 0 ++ ([3] ++ List.replicate (284 - xc) 0))))).length = 285 := by
    simp only [List.length_append, List.length_replicate, List.length_cons, List.length_nil]; omega
  rw [l2] at s2
  rw [l3] at s3
  simp only [List.length_append, List.length_replicate, List.length_cons, List.length_nil, List.count_nil, Nat.add_zero, f1, f2, f3,
    Nat.zero_add] at s0 s1 s2 s3
  have k1 : List.count 3 ([2] ++ List.replicate 255 0) = 0 := by simp [-List.reduceReplicate, List.count_replicate]
  have k2 : List.count 3 ([2] ++ (List.replicate 255 0 ++ ([3] ++ List.replicate (xc - 257) 0))) = 1 := by simp [-List.reduceReplicate, List.count_replicate]
  have k3 : List.count 1 ([2] ++ (List.replicate 255 0 ++ ([3] ++ (List.replicate (xc - 257) 0 ++ ([3] ++ List.replicate (284 - xc) 0))))) = 0 := by
    simp [-List.reduceReplicate, List.count_replicate]
  rw [k1] at s1; rw [k2] at s2; rw [k3] at s3
  have hd : canonicalCode (zrLitLengths xc) = canonicalFrom (zrLitLengths xc) 0
      (2 :: (List.replicate 255 0 ++ (3 :: (List.replicate (xc - 257) 0 ++ (3 :: (List.replicate (284 - xc) 0 ++ [1])))))) := by
    exact congrArg (canonicalFrom (zrLitLengths xc) 0) (by simp only [zrLitLengths, List.cons_append, List.nil_append])
  rw [hd]
  simp only [List.cons_append, List.nil_append] at s0 s1 s2 s3
  rw [s0, canonicalFrom_zeros, s1, canonicalFrom_zeros, show 1 + 255 + 1 + (xc - 257) = xc by omega, s2, canonicalFrom_zeros,
    show xc + 1 + (284 - xc) = 285 by omega, s3]
  rfl

/-- The distance code lengths sent are 1 and 0 (R85, R97). -/
theorem zrDistance : distanceCodeOk [1, 0] = true ∧ canonicalCode [1, 0] = distTable := by decide

/-! ### Reading the trees of a zero-run block -/

/-- The canonical code of the code-length code (R83). -/
def clCanonical : List CodeRow := [⟨0, 2, 0b00⟩, ⟨1, 2, 0b01⟩, ⟨2, 3, 0b110⟩, ⟨3, 3, 0b111⟩, ⟨18, 2, 0b10⟩]

theorem clCanonical_eq : completeCode (clLengthsBySymbol clLengthsSent) = true
    ∧ canonicalCode (clLengthsBySymbol clLengthsSent) = clCanonical := by decide

theorem clCanonical_prefixFree : PrefixFree clCanonical := by unfold PrefixFree; decide

theorem readClLengths_append (ls : List Nat) (hl : ∀ l ∈ ls, l < 8) (rest : List Bool) :
    readClLengths ls.length (ls.flatMap (fun l => fieldBits l 3) ++ rest) = some (ls, rest) := by
  induction ls with
  | nil => rfl
  | cons l ls ih =>
    have h8 : l % 2 ^ 3 = l := Nat.mod_eq_of_lt (hl l (by simp))
    simp only [List.flatMap_cons, List.append_assoc, List.length_cons, readClLengths, takeBits_fieldBits]
    rw [ih (fun x hx => hl x (by simp [hx])), h8]

/-- A code-length symbol of 15 or less is one length (R57). -/
theorem readCodeLengths_one {r : CodeRow} (hr : r ∈ clCanonical) (hs : r.symbol ≤ 15) (count fuel : Nat) (soFar : List Nat)
    (rest : List Bool) (hc : soFar.length < count) :
    readCodeLengths clCanonical count (fuel + 1) soFar (rowBits r ++ rest)
      = readCodeLengths clCanonical count fuel (soFar ++ [r.symbol]) rest := by
  rw [readCodeLengths, if_neg (by omega), if_neg (by omega), readSym_row clCanonical_prefixFree hr]
  simp only [readRun, if_pos hs]

/-- Symbol 18 is a run of zero lengths (R57, R83). -/
theorem readCodeLengths_run (count fuel g : Nat) (soFar : List Nat) (rest : List Bool) (hc : soFar.length < count)
    (h1 : 11 ≤ g) (h2 : g ≤ 138) :
    readCodeLengths clCanonical count (fuel + 1) soFar (cl18Bits g ++ rest)
      = readCodeLengths clCanonical count fuel (soFar ++ List.replicate g 0) rest := by
  have hr : (⟨18, 2, 0b10⟩ : CodeRow) ∈ clCanonical := by decide
  have hb : codeBits clTable 18 = rowBits ⟨18, 2, 0b10⟩ := by decide
  have hm : (g - 11) % 2 ^ 7 = g - 11 := Nat.mod_eq_of_lt (by omega)
  rw [readCodeLengths, if_neg (by omega), if_neg (by omega), cl18Bits, hb, List.append_assoc,
    readSym_row clCanonical_prefixFree hr]
  simp only [readRun, takeBits_fieldBits, hm]
  simp only [show ¬ (18 ≤ 15) by decide, show ¬ (18 = 16) by decide, show ¬ (18 = 17) by decide, if_false]
  rw [show 11 + (g - 11) = g by omega]

/-- A gap of zero lengths (R84). -/
theorem readCodeLengths_gap (count g : Nat) (rest : List Bool) (hg : g ≤ 138) :
    ∃ used ≤ 10, ∀ (fuel : Nat) (soFar : List Nat), soFar.length + g < count →
      readCodeLengths clCanonical count (fuel + used) soFar (gapBits g ++ rest)
        = readCodeLengths clCanonical count fuel (soFar ++ List.replicate g 0) rest := by
  by_cases h : 11 ≤ g
  · refine ⟨1, by decide, fun fuel soFar hc => ?_⟩
    rw [gapBits, if_pos h, readCodeLengths_run _ _ _ _ _ (by omega) h hg]
  · refine ⟨g, by omega, fun fuel soFar hc => ?_⟩
    rw [gapBits, if_neg h]
    clear h hg
    induction g generalizing soFar with
    | zero => simp
    | succ g ih =>
      have hr : (⟨0, 2, 0b00⟩ : CodeRow) ∈ clCanonical := by decide
      have hb : List.replicate (2 * (g + 1)) false = rowBits ⟨0, 2, 0b00⟩ ++ List.replicate (2 * g) false := by
        rw [show 2 * (g + 1) = 2 + 2 * g by omega, List.replicate_add]; rfl
      rw [hb, List.append_assoc, show fuel + (g + 1) = (fuel + g) + 1 from rfl,
        readCodeLengths_one hr (by decide) _ _ _ _ (by omega), ih _ (by simp; omega)]
      simp [List.replicate_succ]

/-- The 288 lengths of R89, whatever follows. -/
theorem readCodeLengths_trees (xc : Nat) (h1 : 257 ≤ xc) (h2 : xc ≤ 284) (rest : List Bool) :
    readCodeLengths clCanonical 288 289 [] (treeBits xc ++ rest) = some (zrLitLengths xc ++ [1, 0], rest) := by
  have e2 : codeBits clTable 2 = rowBits ⟨2, 3, 0b110⟩ := by decide
  have e3 : codeBits clTable 3 = rowBits ⟨3, 3, 0b111⟩ := by decide
  have e1 : codeBits clTable 1 = rowBits ⟨1, 2, 0b01⟩ := by decide
  have e0 : codeBits clTable 0 = rowBits ⟨0, 2, 0b00⟩ := by decide
  have m2 : (⟨2, 3, 0b110⟩ : CodeRow) ∈ clCanonical := by decide
  have m3 : (⟨3, 3, 0b111⟩ : CodeRow) ∈ clCanonical := by decide
  have m1 : (⟨1, 2, 0b01⟩ : CodeRow) ∈ clCanonical := by decide
  have m0 : (⟨0, 2, 0b00⟩ : CodeRow) ∈ clCanonical := by decide
  simp only [treeBits, e0, e1, e2, e3, List.append_assoc]
  have hlen : ∀ a b c d : List Nat, (a ++ b).length = a.length + b.length := fun a b _ _ => List.length_append
  obtain ⟨u, hu, gu⟩ := readCodeLengths_gap 288 (xc - 257)
    (rowBits ⟨3, 3, 0b111⟩ ++ (gapBits (284 - xc) ++ (rowBits ⟨1, 2, 0b01⟩ ++ (rowBits ⟨1, 2, 0b01⟩ ++ (rowBits ⟨0, 2, 0b00⟩ ++ rest))))) (by omega)
  obtain ⟨v, hv, gv⟩ := readCodeLengths_gap 288 (284 - xc)
    (rowBits ⟨1, 2, 0b01⟩ ++ (rowBits ⟨1, 2, 0b01⟩ ++ (rowBits ⟨0, 2, 0b00⟩ ++ rest))) (by omega)
  rw [readCodeLengths_one m2 (by decide) 288 288 _ _ (by decide), readCodeLengths_run 288 287 138 _ _ (by decide) (by decide) (by decide),
    readCodeLengths_run 288 286 117 _ _ (by simp [-List.reduceReplicate]) (by decide) (by decide),
    readCodeLengths_one m3 (by decide) 288 285 _ _ (by simp [-List.reduceReplicate]),
    show 285 = (285 - u) + u by omega, gu _ _ (by simp [-List.reduceReplicate]; omega),
    show 285 - u = (284 - u) + 1 by omega, readCodeLengths_one m3 (by decide) _ _ _ _ (by simp [-List.reduceReplicate]; omega),
    show 284 - u = (284 - u - v) + v by omega, gv _ _ (by simp [-List.reduceReplicate]; omega),
    show 284 - u - v = (280 - u - v) + 1 + 1 + 1 + 1 by omega,
    readCodeLengths_one m1 (by decide) _ _ _ _ (by simp [-List.reduceReplicate]; omega),
    readCodeLengths_one m1 (by decide) _ _ _ _ (by simp [-List.reduceReplicate]; omega),
    readCodeLengths_one m0 (by decide) _ _ _ _ (by simp [-List.reduceReplicate]; omega), readCodeLengths, if_pos]
  · refine congrArg (fun l => some (l, rest)) ?_
    have h255 : List.replicate 255 0 = List.replicate 138 0 ++ List.replicate 117 (0 : Nat) := by rw [← List.replicate_add]
    simp only [zrLitLengths, h255, List.nil_append, List.append_assoc, List.cons_append]
  · simp [-List.reduceReplicate]; omega

/-- The header without its first three bits, and the trees: the two codes of R85. -/
theorem readTrees_zr (xc : Nat) (h1 : 257 ≤ xc) (h2 : xc ≤ 284) (rest : List Bool) :
    readTrees ((fieldBits 29 5 ++ (fieldBits 1 5 ++ (fieldBits 14 4 ++ clLengthsSent.flatMap (fun l => fieldBits l 3)))) ++ (treeBits xc ++ rest))
      = some ([⟨0, 2, 0b10⟩, ⟨256, 3, 0b110⟩, ⟨xc, 3, 0b111⟩, ⟨285, 1, 0b0⟩], distTable, rest) := by
  have hcl : readClLengths 18 (clLengthsSent.flatMap (fun l => fieldBits l 3) ++ (treeBits xc ++ rest)) = some (clLengthsSent, treeBits xc ++ rest) :=
    readClLengths_append clLengthsSent (by decide) _
  have ht : (zrLitLengths xc ++ [1, 0]).take 286 = zrLitLengths xc := List.take_left' (zrLitLengths_length xc h1 h2)
  have hd : (zrLitLengths xc ++ [1, 0]).drop 286 = [1, 0] := List.drop_left' (zrLitLengths_length xc h1 h2)
  simp only [List.append_assoc]
  rw [readTrees, takeBits_fieldBits]
  simp only [bind, Option.bind, takeBits_fieldBits, Nat.reduceMod, Nat.reducePow, Nat.reduceAdd]
  rw [hcl]
  simp only [clCanonical_eq.1, clCanonical_eq.2, if_true, readCodeLengths_trees xc h1 h2]
  simp only [ht, hd, completeCode_zrLitLengths, zrDistance.1, zrDistance.2, canonicalCode_zrLitLengths xc h1 h2, Bool.and_self, if_true]

/-! ### The data of a zero-run block (R82, R90, R92) -/

/-- The literal/length code of R85 in symbol order. -/
def zrTable (xc : Nat) : List CodeRow := [⟨0, 2, 0b10⟩, ⟨256, 3, 0b110⟩, ⟨xc, 3, 0b111⟩, ⟨285, 1, 0b0⟩]

theorem zrTable_prefixFree (xc : Nat) : PrefixFree (zrTable xc) := by
  intro a ha b hb h
  have hp := code_of_prefix h
  simp only [zrTable, List.mem_cons, List.not_mem_nil, or_false] at ha hb
  rcases ha with rfl | rfl | rfl | rfl <;> rcases hb with rfl | rfl | rfl | rfl <;> first | rfl | (simp at hp)

theorem distTable_prefixFree : PrefixFree distTable := by unfold PrefixFree; decide

theorem zeros_append (a b : Nat) : zeros a ++ zeros b = zeros (a + b) := (List.replicate_add a b 0).symm

/-- A match at distance 1 after zero bytes makes more zero bytes (R59). -/
theorem copyLast_zeros (L m : Nat) (hm : 1 ≤ m) : copyLast L (zeros m) = some (zeros (m + L)) := by
  obtain ⟨k, rfl⟩ : ∃ k, m = k + 1 := ⟨m - 1, by omega⟩
  have : (zeros (k + 1)).getLast? = some 0 := by
    rw [zeros, List.replicate_succ', List.getLast?_append]; rfl
  rw [copyLast, this]
  exact congrArg some (zeros_append (k + 1) L)

/-- The literal zero (R90). -/
theorem inflateData_literalZero (xc fuel m : Nat) (rest : List Bool) :
    inflateData (zrTable xc) distTable (fuel + 1) (zeros m) ([true, false] ++ rest)
      = inflateData (zrTable xc) distTable fuel (zeros (m + 1)) rest := by
  have hb : [true, false] = rowBits ⟨0, 2, 0b10⟩ := by decide
  rw [inflateData, hb, readSym_row (zrTable_prefixFree xc) (by simp [zrTable])]
  simp only [show (0 : Nat) < 256 by decide, if_true]
  exact congrArg (fun o => inflateData (zrTable xc) distTable fuel o rest) (zeros_append m 1)

/-- A length symbol with its extra bits and the distance bit. -/
theorem inflateData_match (xc fuel m : Nat) (hm : 1 ≤ m) {r : CodeRow} (hr : r ∈ zrTable xc) (h256 : 256 < r.symbol)
    {row : LengthRow} (hrow : lengthTable.find? (fun x => x.symbol == r.symbol) = some row) (ev : Nat) (hev : ev < 2 ^ row.extra)
    (hle : row.first + ev ≤ row.last) (rest : List Bool) :
    inflateData (zrTable xc) distTable (fuel + 1) (zeros m) (rowBits r ++ (fieldBits ev row.extra ++ ([false] ++ rest)))
      = inflateData (zrTable xc) distTable fuel (zeros (m + (row.first + ev))) rest := by
  have hd : [false] = rowBits ⟨0, 1, 0⟩ := by decide
  rw [inflateData, readSym_row (zrTable_prefixFree xc) hr]
  simp only [show ¬ r.symbol < 256 by omega, show ¬ r.symbol = 256 by omega, if_false, readLength, hrow, takeBits_fieldBits,
    Nat.mod_eq_of_lt hev, if_pos hle]
  rw [hd, readSym_row distTable_prefixFree (by decide)]
  simp only [copyLast_zeros _ _ hm]

/-- Pairs of symbol 285 and distance 0: 258 zero bytes for two zero bits (R82). -/
theorem inflateData_pairs (xc fuel k m : Nat) (hm : 1 ≤ m) (rest : List Bool) :
    inflateData (zrTable xc) distTable (fuel + k) (zeros m) (List.replicate (2 * k) false ++ rest)
      = inflateData (zrTable xc) distTable fuel (zeros (m + 258 * k)) rest := by
  induction k generalizing m with
  | zero => rfl
  | succ k ih =>
    have hb : List.replicate (2 * (k + 1)) false ++ rest
        = rowBits ⟨285, 1, 0⟩ ++ (fieldBits 0 0 ++ ([false] ++ (List.replicate (2 * k) false ++ rest))) := by
      rw [show 2 * (k + 1) = 1 + (1 + 2 * k) by omega, List.replicate_add, List.replicate_add]; rfl
    rw [hb, show fuel + (k + 1) = (fuel + k) + 1 from rfl,
      inflateData_match xc (fuel + k) m hm (r := ⟨285, 1, 0⟩) (by simp [zrTable]) (by decide) (row := ⟨285, 0, 258, 258⟩) (by decide) 0
        (by decide) (by decide), ih _ (by omega)]
    congr 2
    show m + (258 + 0) + 258 * k = m + 258 * (k + 1)
    omega

/-- End-of-block. -/
theorem inflateData_end (xc fuel : Nat) (out : List Byte) (rest : List Bool) :
    inflateData (zrTable xc) distTable (fuel + 1) out ([true, true, false] ++ rest) = some (out, rest) := by
  have hb : [true, true, false] = rowBits ⟨256, 3, 0b110⟩ := by decide
  rw [inflateData, hb, readSym_row (zrTable_prefixFree xc) (by simp [zrTable])]
  simp

/-- The row that `LengthCode` finds is the row of its symbol (R59, R81). -/
theorem lengthRow_of_code : ∀ L < 258, 3 ≤ L → ∃ row, lengthTable.find? (fun x => x.symbol == (lengthCodeClosed L).code) = some row
    ∧ row.extra = (lengthCodeClosed L).eb ∧ (lengthCodeClosed L).ev < 2 ^ row.extra ∧ row.first + (lengthCodeClosed L).ev = L ∧ L ≤ row.last := by
  have h : ∀ L < 258, 3 ≤ L → (match lengthTable.find? (fun x => x.symbol == (lengthCodeClosed L).code) with
      | some row => decide (row.extra = (lengthCodeClosed L).eb ∧ (lengthCodeClosed L).ev < 2 ^ row.extra
          ∧ row.first + (lengthCodeClosed L).ev = L ∧ L ≤ row.last)
      | none => false) = true := by decide +kernel
  intro L h1 h2
  have := h L h1 h2
  split at this
  · rename_i row hrow; exact ⟨row, hrow, of_decide_eq_true this⟩
  · cases this

/-- The excess and end-of-block (R92): at most three units of fuel. -/
theorem inflateData_excess (n fuel m : Nat) (hm : 1 ≤ m) (rest : List Bool) :
    inflateData (zrTable (excessOf n).xc) distTable (fuel + 3) (zeros m) (excessBits (excessOf n) ++ ([true, true, false] ++ rest))
      = some (zeros (m + (excessOf n).num), rest) := by
  have hn : (excessOf n).num < 258 := by rw [excessOf_num]; omega
  by_cases h : (excessOf n).num < 3
  · rw [excessBits, if_pos h]
    have h3 : (excessOf n).num = 0 ∨ (excessOf n).num = 1 ∨ (excessOf n).num = 2 := by omega
    rcases h3 with h3 | h3 | h3
    · rw [h3]; exact inflateData_end _ _ _ _
    · rw [h3]
      exact (inflateData_literalZero _ (fuel + 2) m _).trans (inflateData_end _ _ _ _)
    · rw [h3]
      exact (inflateData_literalZero _ (fuel + 2) m ([true, false] ++ ([true, true, false] ++ rest))).trans
        ((inflateData_literalZero _ (fuel + 1) (m + 1) _).trans (inflateData_end _ _ _ _))
  · rw [excessBits, if_neg h]
    rw [excessOf_num] at h hn
    obtain ⟨row, hrow, he, hev, hL, hlast⟩ := lengthRow_of_code ((n - 1) % 258) hn (by omega)
    have hx : excessOf n = ⟨(n - 1) % 258, (lengthCodeClosed ((n - 1) % 258)).code, (lengthCodeClosed ((n - 1) % 258)).eb,
        (lengthCodeClosed ((n - 1) % 258)).ev⟩ := by rw [excessOf, if_pos (by omega)]
    have hcode := lengthCode_ok (L := (n - 1) % 258) (by omega) (by omega)
    have hb : [true, true, true] = rowBits ⟨(lengthCodeClosed ((n - 1) % 258)).code, 3, 0b111⟩ := by
      show _ = fieldBitsRev 0b111 3; decide
    rw [hx]
    simp only [List.append_assoc]
    rw [hb, ← he]
    rw [inflateData_match _ (fuel + 2) m hm (r := ⟨(lengthCodeClosed ((n - 1) % 258)).code, 3, 0b111⟩) (by simp [zrTable])
      (by show 256 < (lengthCodeClosed ((n - 1) % 258)).code; omega) hrow _ hev (by omega), inflateData_end, hL]

/-- A whole zero-run block up to its end-of-block (R82): the literal, `k` pairs, the excess. Not final. -/
theorem inflateBlock_zeroRun (n k : Nat) (rest : List Bool) :
    inflateBlock (zrHeadBits (excessOf n).xc ++ ([true, false] ++ (List.replicate (2 * k) false
        ++ (excessBits (excessOf n) ++ ([true, true, false] ++ rest)))))
      = some (false, zeros (1 + 258 * k + (excessOf n).num), rest) := by
  obtain ⟨h1, h2⟩ := excessOf_xc n
  have hr := readTrees_zr (excessOf n).xc h1 h2
    ([true, false] ++ (List.replicate (2 * k) false ++ (excessBits (excessOf n) ++ ([true, true, false] ++ rest))))
  have hh : zrHeadBits (excessOf n).xc ++ ([true, false] ++ (List.replicate (2 * k) false ++ (excessBits (excessOf n) ++ ([true, true, false] ++ rest))))
      = fieldBits 0 1 ++ (fieldBits 2 2 ++ ((fieldBits 29 5 ++ (fieldBits 1 5 ++ (fieldBits 14 4 ++ clLengthsSent.flatMap (fun l => fieldBits l 3))))
        ++ (treeBits (excessOf n).xc ++ ([true, false] ++ (List.replicate (2 * k) false ++ (excessBits (excessOf n) ++ ([true, true, false] ++ rest))))))) := by
    rw [zrHeadBits, headerBits]; simp only [List.append_assoc]
  rw [hh, inflateBlock, takeBits_fieldBits]
  simp only [bind, Option.bind, takeBits_fieldBits, Nat.reduceMod, Nat.reducePow]
  rw [hr]
  simp only []
  have hf : ([true, false] ++ (List.replicate (2 * k) false ++ (excessBits (excessOf n) ++ ([true, true, false] ++ rest)))).length + 1
      = ((2 * k - k + (excessBits (excessOf n)).length + rest.length + 2) + 3 + k) + 1 := by
    simp only [List.length_append, List.length_replicate, List.length_cons, List.length_nil]; omega
  have e0 := inflateData_literalZero (excessOf n).xc ((2 * k - k + (excessBits (excessOf n)).length + rest.length + 2) + 3 + k) 0
    (List.replicate (2 * k) false ++ (excessBits (excessOf n) ++ ([true, true, false] ++ rest)))
  have e1 := inflateData_pairs (excessOf n).xc ((2 * k - k + (excessBits (excessOf n)).length + rest.length + 2) + 3) k (0 + 1) (by omega)
    (excessBits (excessOf n) ++ ([true, true, false] ++ rest))
  have e2 := inflateData_excess n (2 * k - k + (excessBits (excessOf n)).length + rest.length + 2) (0 + 1 + 258 * k) (by omega) rest
  have e := e0.trans (e1.trans e2)
  rw [hf]
  have hz : zeros 0 = [] := rfl
  rw [hz] at e
  rw [zrTable] at e
  rw [e]
  simp

/-- The middle bytes of a TRIPLE are zero bits (R91). -/
theorem bitsOf_zeros (z : Nat) : bitsOf (zeros z) = List.replicate (8 * z) false := by
  induction z with
  | zero => rfl
  | succ z ih =>
    have h : bitsOf (zeros (z + 1)) = byteBits 0 ++ bitsOf (zeros z) := rfl
    rw [h, ih, show 8 * (z + 1) = 8 + 8 * z by omega, List.replicate_add]
    rfl

end Sys2Proof.Machine
end

