-- ==== Sys2Proof/Laws/PerInstr.lean ====
section
/-! SUPPORT. Statements about every command as syntax, one lemma per constructor: the word of a well-formed command is legal (R48). -/

namespace Sys2Proof.Laws.LegalEncoding

/-- The encoding of a well-formed command is a legal word (R48). -/
def Statement (i : Instr) : Prop := i.WellFormed → legalWord (encode i) = true

theorem bwPush (value : Word64) (nbits : Nat) : Statement (.bwPush value nbits) := fun _ => by simp [legalWord, encode]

theorem bwPushRev (value : Word64) (nbits : Nat) : Statement (.bwPushRev value nbits) := fun _ => by simp [legalWord, encode]

theorem bwAligned : Statement .bwAligned := fun _ => by decide

theorem bwClear : Statement .bwClear := fun _ => by decide

theorem bwExtract : Statement .bwExtract := fun _ => by decide

theorem feEncode (len : Nat) : Statement (.feEncode len) := fun _ => by simp [legalWord, encode]

theorem zrEncode (n : Nat) : Statement (.zrEncode n) := fun _ => by simp [legalWord, encode]

theorem adLoad (checksum : Word32) : Statement (.adLoad checksum) := fun _ => by
  have h : (checksum.setWidth 64).extractLsb' 32 32 = 0 := by
    apply BitVec.eq_of_toNat_eq
    have := checksum.isLt
    simp only [BitVec.extractLsb'_toNat, BitVec.toNat_setWidth, Nat.shiftRight_eq_div_pow]
    rw [show (0 : BitVec 32).toNat = 0 from rfl]
    omega
  simp [legalWord, encode, h]

theorem adCombine (len : Nat) : Statement (.adCombine len) := fun _ => by simp [legalWord, encode]

theorem adZeroRun (n : Nat) : Statement (.adZeroRun n) := fun _ => by simp [legalWord, encode]

theorem adRead : Statement .adRead := fun _ => by decide

end Sys2Proof.Laws.LegalEncoding
end

