-- ==== Sys2Proof/Tests/Slice0.lean ====
section
/-! SUPPORT. Small tests with results taken from the spec's vectors (95_test_vectors.md, each named by its id), the ill-formed terms that
WellFormed refuses, and for every statement with hypotheses a witness that meets them all. -/

open Sys2Proof Sys2Proof.Machine

namespace Sys2Proof.Tests

/-! ### Helpers: one command on a small state -/

/-- The bytes written as numbers. -/
def bytes (ns : List Nat) : List Byte := ns.map (BitVec.ofNat 8)

/-- The reset state holding this writer, with these actions offered. -/
def holding (w : BitWriter) (input : List HostAction) : State := { State.reset with bw := w, input := input }

/-- The reset state with one command offered, its word written out. -/
def given (word : CmdWord) (data : List Nat) : State := holding BitWriter.empty [.command ⟨word, bytes data⟩]

/-- What the tests look at in a next state. -/
def look (o : Host.Outcome State Fault Refusal) : Option (BitWriter × Word32 × Bool × BitVec 4) :=
  match o with
  | .next s => some (s.bw, s.adler, s.faultValid, s.faultCode)
  | .fault _ => none
  | .refused _ => none

/-- The last answer in a next state. -/
def lastAnswer (o : Host.Outcome State Fault Refusal) : Option Response :=
  match o with
  | .next s => s.responses.getLast?
  | .fault _ => none
  | .refused _ => none

/-- The writer after one command. -/
def writerAfter (w : BitWriter) (i : Instr) : Option BitWriter :=
  match step (holding w [.command (commandOf i [])]) with
  | .next s => some s.bw
  | .fault _ => none
  | .refused _ => none

/-- The answer to one command from a writer. -/
def answerTo (w : BitWriter) (i : Instr) (data : List Nat) : Option Response :=
  lastAnswer (step (holding w [.command (commandOf i (bytes data))]))

/-- The writers of V13 to V16. -/
def w13 : BitWriter := ⟨[], 0x05, 3⟩
def w14 : BitWriter := ⟨[0xFD], 0x0F, 4⟩
def w15 : BitWriter := ⟨[0xFD], 0x3F, 7⟩
def w16 : BitWriter := ⟨[0xFD, 0x3F], 0x00, 0⟩

/-! ### WellFormed: one ill-formed term for each check, and the largest well-formed ones -/

theorem test_illformed_nbits : (Instr.bwPush 0 64).wellFormed = false ∧ (Instr.bwPushRev 0 64).wellFormed = false := by decide

theorem test_illformed_lengths :
    (Instr.feEncode (2 ^ 64)).wellFormed = false ∧ (Instr.zrEncode (2 ^ 64)).wellFormed = false
      ∧ (Instr.adCombine (2 ^ 64)).wellFormed = false ∧ (Instr.adZeroRun (2 ^ 64)).wellFormed = false := by decide

theorem test_wellformed_largest :
    (Instr.bwPush 0xFFFFFFFFFFFFFFFF 63).wellFormed = true ∧ (Instr.bwPushRev 0 63).wellFormed = true
      ∧ (Instr.feEncode (2 ^ 64 - 1)).wellFormed = true ∧ (Instr.zrEncode (2 ^ 64 - 1)).wellFormed = true
      ∧ (Instr.adCombine (2 ^ 64 - 1)).wellFormed = true ∧ (Instr.adZeroRun (2 ^ 64 - 1)).wellFormed = true
      ∧ (Instr.adLoad 0xFFFFFFFF).wellFormed = true := by decide

/-! ### Decoding: each constructor's word as R45 and V70 to V71f write it -/

theorem test_decode_pushes :
    decode 0x00000000000001FF0090 = .ok (.bwPush 0x1FF 9) ∧ decode 0xFFFFFFFFFFFFFFFF03F0 = .ok (.bwPush 0xFFFFFFFFFFFFFFFF 63)
      ∧ decode 0x00000000000000060031 = .ok (.bwPushRev 6 3) := ⟨rfl, rfl, rfl⟩

theorem test_decode_no_operand :
    decode 0x00000000000000000002 = .ok .bwAligned ∧ decode 0x00000000000000000003 = .ok .bwClear
      ∧ decode 0x00000000000000000004 = .ok .bwExtract ∧ decode 0x0000000000000000000A = .ok .adRead := ⟨rfl, rfl, rfl, rfl⟩

theorem test_decode_argument :
    decode 0x00000000000000010005 = .ok (.feEncode 1) ∧ decode 0x00000000000004090006 = .ok (.zrEncode 1033)
      ∧ decode 0x00000000FFF0FFF00007 = .ok (.adLoad 0xFFF0FFF0) ∧ decode 0x00000000000000030008 = .ok (.adCombine 3)
      ∧ decode 0xFFFFFFFFFFFFFFFF0009 = .ok (.adZeroRun (2 ^ 64 - 1)) := ⟨rfl, rfl, rfl, rfl, rfl⟩

/-- The same words built bit by bit from the fields of R45: `arg`, `rsv`, `nbits`, `op`. -/
theorem test_decode_bit_by_bit :
    decode ((0b101 : BitVec 64) ++ (0b000000 : BitVec 6) ++ (0b000011 : BitVec 6) ++ (0b0000 : BitVec 4)) = .ok (.bwPush 5 3)
      ∧ decode ((0b1 : BitVec 64) ++ (0b000000 : BitVec 6) ++ (0b000000 : BitVec 6) ++ (0b0101 : BitVec 4)) = .ok (.feEncode 1)
      ∧ decode ((0b1111 : BitVec 64) ++ (0b000000 : BitVec 6) ++ (0b000000 : BitVec 6) ++ (0b0110 : BitVec 4)) = .ok (.zrEncode 15)
      ∧ decode ((0b1 : BitVec 64) ++ (0b000000 : BitVec 6) ++ (0b000000 : BitVec 6) ++ (0b0111 : BitVec 4)) = .ok (.adLoad 1) :=
  ⟨rfl, rfl, rfl, rfl⟩

theorem test_decode_refuses :
    decode 0x0000000000000000000B = .error .reservedOpcode ∧ decode 0x0000000000000001000F = .error .reservedOpcode
      ∧ decode 0x00000000000000010410 = .error .reservedField ∧ decode 0x00000000000000000013 = .error .nbitsNotZero
      ∧ decode 0x00000000000000010004 = .error .argNotZero ∧ decode 0x00000001000000000007 = .error .argNotZero
      ∧ decode 0x00000000000000050036 = .error .nbitsNotZero := ⟨rfl, rfl, rfl, rfl, rfl, rfl, rfl⟩

theorem test_table_word :
    decodeTableWord 80 0x00000000000F42400006 = some (.zrEncode 1000000) ∧ decodeTableWord 80 0x0B = none
      ∧ decodeTableWord 16 0x0030 = some (.bwPush 0 3) := ⟨rfl, rfl, rfl⟩

/-- The word is offered with the payload it announces, all zeros, and the very next step runs it: V21. -/
theorem test_fetch_word :
    lastAnswer (step (State.reset.withFetchWord 80 0x00000000000000010005))
      = some ⟨0, .plain, 0, bytes [0x62, 0, 0, 0, 0, 0xFF, 0xFF], []⟩ := by decide +kernel

/-! ### bit_writer: V13 to V19h, V19i to V19m -/

/-- V13, V14, V16, V17, V19, V19a, V19b. -/
theorem test_push :
    writerAfter BitWriter.empty (.bwPush 0b101 3) = some w13 ∧ writerAfter w13 (.bwPush 0x1FF 9) = some w14
      ∧ writerAfter w15 (.bwPush 0 1) = some w16
      ∧ writerAfter BitWriter.empty (.bwPush 0xABCD 16) = some ⟨[0xCD, 0xAB], 0, 0⟩
      ∧ writerAfter w13 (.bwPush 0xFF 0) = some w13 ∧ writerAfter BitWriter.empty (.bwPush 0xFF 4) = some ⟨[], 0x0F, 4⟩
      ∧ writerAfter BitWriter.empty (.bwPush 0xFFFFFFFFFFFFFFFF 63) = some ⟨List.replicate 7 0xFF, 0x7F, 7⟩ := by decide +kernel

/-- V15, V18, V19c, V19d. -/
theorem test_push_rev :
    writerAfter w14 (.bwPushRev 0b110 3) = some w15
      ∧ writerAfter BitWriter.empty (.bwPushRev 0xABCD 16) = some ⟨[0xD5, 0xB3], 0, 0⟩
      ∧ writerAfter BitWriter.empty (.bwPushRev 1 63) = some ⟨zeros 7, 0x40, 7⟩
      ∧ writerAfter BitWriter.empty (.bwPushRev 0x30 8) = some ⟨[0x0C], 0, 0⟩ := by decide +kernel

/-- V74: the third byte does not fit a buffer of two. -/
theorem test_push_overflow :
    look (step { State.resetWith ⟨some 2⟩ with input := hostActions [commandOf (.bwPush 0xFFFFFF 24) []] })
      = some (BitWriter.empty, 1, true, 4)
    ∧ writerAfter BitWriter.empty (.bwPush 0xFFFFFF 24) = some ⟨[0xFF, 0xFF, 0xFF], 0, 0⟩ := by decide +kernel

/-- V19e. -/
theorem test_aligned :
    answerTo BitWriter.empty .bwAligned [] = some ⟨0, .scalar, 1, [], []⟩
      ∧ answerTo w13 .bwAligned [] = some ⟨0, .scalar, 0, [], []⟩ ∧ answerTo w16 .bwAligned [] = some ⟨0, .scalar, 1, [], []⟩ := by
  decide +kernel

/-- V19h. -/
theorem test_clear : writerAfter w15 .bwClear = some BitWriter.empty := by decide +kernel

/-- V19f, V19g, V73. -/
theorem test_extract :
    answerTo w16 .bwExtract [] = some ⟨0, .plain, 0, [0xFD, 0x3F], []⟩ ∧ writerAfter w16 .bwExtract = some w16
      ∧ answerTo w15 .bwExtract [] = some ⟨3, .none, 0, [], []⟩
      ∧ look (step (holding w15 [.command ⟨0x00000000000000000004, []⟩])) = some (w15, 1, true, 3) := by decide +kernel

/-- V19i to V19m. -/
theorem test_align_stored :
    (alignStored none BitWriter.empty).toOption = some BitWriter.empty
      ∧ (alignStored none ⟨[], 0x07, 3⟩).toOption = some ⟨[0x07, 0, 0, 0xFF, 0xFF], 0, 0⟩
      ∧ (alignStored none ⟨[], 0x1F, 5⟩).toOption = some ⟨[0x1F, 0, 0, 0xFF, 0xFF], 0, 0⟩
      ∧ (alignStored none ⟨[], 0x3F, 6⟩).toOption = some ⟨[0x3F, 0, 0, 0, 0xFF, 0xFF], 0, 0⟩
      ∧ (alignStored none ⟨[], 0x7F, 7⟩).toOption = some ⟨[0x7F, 0, 0, 0, 0xFF, 0xFF], 0, 0⟩ := by decide +kernel

/-! ### The encoders -/

/-- V20, V22, V23, V24, V24c, V26 (no stored block), V28. -/
theorem test_fixed_block :
    answerTo w15 (.feEncode 0) [] = some ⟨0, .plain, 0, bytes [0x02, 0, 0, 0, 0xFF, 0xFF], []⟩
      ∧ answerTo w15 (.feEncode 1) [0x61] = some ⟨0, .plain, 0, bytes [0x4A, 0x04, 0, 0, 0, 0xFF, 0xFF], []⟩
      ∧ answerTo w15 (.feEncode 1) [0x8F] = some ⟨0, .plain, 0, bytes [0xEA, 0x07, 0, 0, 0, 0xFF, 0xFF], []⟩
      ∧ answerTo w15 (.feEncode 1) [0x90] = some ⟨0, .plain, 0, bytes [0x9A, 0, 0, 0, 0, 0xFF, 0xFF], []⟩
      ∧ answerTo w15 (.feEncode 4) [0x00, 0x8F, 0x90, 0xFF]
        = some ⟨0, .plain, 0, bytes [0x62, 0xE8, 0x9F, 0xF0, 0x1F, 0, 0, 0, 0xFF, 0xFF], []⟩
      ∧ answerTo w15 (.feEncode 6) [0x90, 0x90, 0x90, 0x90, 0x90, 0x90]
        = some ⟨0, .plain, 0, bytes [0x9A, 0x30, 0x61, 0xC2, 0x84, 0x09, 0x13, 0x00], []⟩ := by decide +kernel

/-- After FE_ENCODE the writer is cleared, whatever it held; V72, V72a. -/
theorem test_fixed_state :
    look (step (holding w15 [.command (commandOf (.feEncode 1) [0x61])])) = some (BitWriter.empty, 1, false, 0)
      ∧ look (step (given 0x00000000000000020005 [0x61])) = some (BitWriter.empty, 1, true, 2)
      ∧ look (step (given 0x00000000000000000005 [0x61])) = some (BitWriter.empty, 1, true, 2) := by decide +kernel

/-- V32, V40, V41, V42b. -/
theorem test_zero_run :
    answerTo w15 (.zrEncode 2) [] = some ⟨0, .plain, 0, bytes [0x62, 0x60, 0, 0, 0, 0, 0xFF, 0xFF], []⟩
      ∧ answerTo w15 (.zrEncode 1033) []
        = some ⟨0, .triple, 0, bytes [0xEC, 0xC1, 0x01, 0x09, 0, 0, 0, 0xC3, 0xA0, 0xF5, 0x4F, 0xFD, 0x07, 0x51, 0x02],
            bytes [0x18, 0, 0, 0, 0xFF, 0xFF]⟩
      ∧ answerTo w15 (.zrEncode 1034) []
        = some ⟨0, .triple, 0, bytes [0xEC, 0xC1, 0x01, 0x09, 0, 0, 0, 0xC3, 0xA0, 0xF5, 0x4F, 0xFD, 0x07, 0x51, 0x02], bytes [0x68]⟩
      ∧ answerTo w15 (.zrEncode 2064) []
        = some ⟨0, .triple, 1, bytes [0xEC, 0xC1, 0x01, 0x09, 0, 0, 0, 0xC3, 0xA0, 0xF5, 0x4F, 0xFD, 0x20, 0x57, 0x02],
            bytes [0xEE, 0x0D, 0, 0, 0xFF, 0xFF]⟩ := by decide +kernel

/-- V41c, V45, V45b: another excess symbol, and the largest runs. -/
theorem test_zero_run_wide :
    answerTo w15 (.zrEncode 1039) []
        = some ⟨0, .triple, 0, bytes [0xEC, 0xC1, 0x01, 0x09, 0, 0, 0, 0xC3, 0xA0, 0xF5, 0x4F, 0x7D, 0xE0, 0x35, 0x94, 0x00], bytes [0x6E]⟩
      ∧ answerTo w15 (.zrEncode (2 ^ 64 - 1)) []
        = some ⟨0, .triple, 17874752009408479,
            bytes [0xEC, 0xC1, 0x01, 0x09, 0, 0, 0, 0xC3, 0xA0, 0xF5, 0x4F, 0xFD, 0x20, 0x57, 0x02],
            bytes [0xF8, 0x36, 0, 0, 0, 0xFF, 0xFF]⟩
      ∧ look (step (holding w15 [.command (commandOf (.zrEncode 1039) [])])) = some (BitWriter.empty, 1, false, 0) := by decide +kernel

/-- The table of section 4.5. -/
theorem test_length_code :
    (lengthCode 3).toOption = some ⟨257, 0, 0⟩ ∧ (lengthCode 12).toOption = some ⟨265, 1, 1⟩
      ∧ (lengthCode 34).toOption = some ⟨272, 2, 3⟩ ∧ (lengthCode 97).toOption = some ⟨278, 4, 14⟩
      ∧ (lengthCode 257).toOption = some ⟨284, 5, 30⟩ ∧ (lengthCode 258).toOption = some ⟨285, 0, 0⟩
      ∧ (lengthCode 2).toOption = none ∧ (lengthCode 259).toOption = none := by decide +kernel

/-! ### adler32_accumulator -/

/-- V70i and its state. -/
theorem test_load : look (step (given 0x00000000FFF0FFF00007 [])) = some (BitWriter.empty, 0xFFF0FFF0, false, 0) := by decide +kernel

/-- V54, V54b, V57, V58, V58a. -/
theorem test_combine :
    adlerCombine 1 [] = 1 ∧ adlerCombine 1 (bytes [0x61, 0x62, 0x63]) = 0x024D0127
      ∧ adlerCombine 0xFFF0FFF0 [0x01] = 0xFFF00000 ∧ adlerCombine 0xFFFFFFFF [] = 0xFFFFFFFF
      ∧ adlerCombine 0xFFFFFFFF [0x00] = 0x001C000E := by decide +kernel

/-- P5 step 1; V72c. -/
theorem test_combine_step :
    look (step (given 0x00000000000000030008 [0x61, 0x62, 0x63])) = some (BitWriter.empty, 0x024D0127, false, 0)
      ∧ answerTo BitWriter.empty (.adCombine 3) [0x61, 0x62, 0x63] = some ⟨0, .scalar, 0x024D0127, [], []⟩
      ∧ look (step (given 0x00000000000000010008 [])) = some (BitWriter.empty, 1, true, 2) := by decide +kernel

/-- V50, V51b, V52, V52b, V53, V53a. -/
theorem test_zero_run_sum :
    adlerZeroRun 1 0 = 1 ∧ adlerZeroRun 1 (2 ^ 64 - 1) = 0xC5C00001 ∧ adlerZeroRun 0x00620062 1033 = 0x8BE30062
      ∧ adlerZeroRun 0xFFF0FFF0 (2 ^ 64 - 1) = 0x3A30FFF0 ∧ adlerZeroRun 0xFFFFFFFF 0 = 0x000EFFFF
      ∧ adlerZeroRun 0xFFFFFFFF 1 = 0x001CFFFF := by decide +kernel

/-- P4 step 1. -/
theorem test_zero_run_sum_step :
    look (step (given 0x00000000000F42400009 [])) = some (BitWriter.empty, 0x43210001, false, 0) := by decide +kernel

/-- P5 step 7. -/
theorem test_read : answerTo BitWriter.empty .adRead [] = some ⟨0, .scalar, 1, [], []⟩ := by decide +kernel

/-! ### Faults and reset -/

/-- V71, V71b, V72b; R122: a wrong word with a payload reports 1. -/
theorem test_faults :
    look (step (given 0x0000000000000000000B [])) = some (BitWriter.empty, 1, true, 1)
      ∧ look (step (given 0x00000000000000010410 [])) = some (BitWriter.empty, 1, true, 1)
      ∧ look (step (given 0x00000000000000050006 [0])) = some (BitWriter.empty, 1, true, 2)
      ∧ look (step (given 0x0000000000000000000B [0x61])) = some (BitWriter.empty, 1, true, 1) := by decide +kernel

/-- P5 steps 4 to 6: a faulted block answers its code and clears nothing; only reset leaves it. -/
theorem test_faulted :
    lastAnswer (step { holding w15 [.command (commandOf .adRead [])] with faultValid := true, faultCode := 3 })
        = some ⟨3, .none, 0, [], []⟩
      ∧ look (step { holding w15 [.command (commandOf .bwClear [])] with faultValid := true, faultCode := 3 }) = some (w15, 1, true, 3)
      ∧ look (step { holding w15 [.reset] with faultValid := true, faultCode := 3, adler := 7 }) = some (BitWriter.empty, 1, false, 0)
      ∧ look (step State.reset) = some (BitWriter.empty, 1, false, 0) := by decide +kernel

/-- V60, V61: the bytes the host assembles. -/
theorem test_produce :
    produce [] 1 = bytes [0x78, 0xDA, 0x01, 0, 0, 0xFF, 0xFF, 0, 0, 0, 1]
      ∧ produce [.plain (bytes [0x4A, 0x04, 0, 0, 0, 0xFF, 0xFF])] 0x00620062
        = bytes [0x78, 0xDA, 0x4A, 0x04, 0, 0, 0, 0xFF, 0xFF, 0x01, 0, 0, 0xFF, 0xFF, 0, 0x62, 0, 0x62]
      ∧ decodeZlib (bytes [0x78, 0xDA, 0x4A, 0x04, 0, 0, 0, 0xFF, 0xFF, 0x01, 0, 0, 0xFF, 0xFF, 0, 0x62, 0, 0x62]) = some [0x61] := by
  decide +kernel

/-- V54c, V52 as pseudo-commands (R52); a faulted block gives no value. -/
theorem test_combine_values :
    combineValue 0x00620062 (bytes [0x62, 0x63]) (holding w15 []) = some 0x024D0127
      ∧ combineZeroRunValue 0x00620062 1033 (holding w15 []) = some 0x8BE30062
      ∧ combineZeroRunValue 1 1 { holding w15 [] with faultValid := true, faultCode := 3 } = none := by decide +kernel

/-! ### Witnesses: the hypotheses of the statements can be met -/

/-- A state with this command offered, ready for it. -/
def offered (w : BitWriter) (i : Instr) (data : List Byte) : State := holding w [.command (commandOf i data)]

theorem witness_DecodeOfEncode :
    (Instr.bwPush 0xFFFFFFFFFFFFFFFF 63).WellFormed ∧ (Instr.bwPushRev 0 0).WellFormed ∧ (Instr.adCombine (2 ^ 64 - 1)).WellFormed := by
  decide

theorem witness_EncodeOfDecode :
    decode 0xFFFFFFFFFFFFFFFF03F0 = .ok (.bwPush 0xFFFFFFFFFFFFFFFF 63) ∧ decode 0x0000000000000000000A = .ok .adRead := ⟨rfl, rfl⟩

theorem witness_StepRunsDecodedCommand :
    (given 0x00000000000000050030 []).input = .command ⟨0x00000000000000050030, []⟩ :: []
      ∧ decode 0x00000000000000050030 = .ok (.bwPush 5 3) := ⟨rfl, rfl⟩

/-- The clauses of CheckOrder: a faulted block, an illegal word, a wrong payload, a command that runs. -/
theorem witness_CheckOrder :
    ({ given 0x0B [] with faultValid := true }).input = .command ⟨0x0B, []⟩ :: []
      ∧ ((given 0x0B []).faultValid = false ∧ legalWord 0x0B = false)
      ∧ (legalWord 0x20005 = true ∧ (given 0x20005 [0x61]).input = .command ⟨0x20005, [0x61]⟩ :: []
        ∧ decode 0x20005 = .ok (.feEncode 2) ∧ ([0x61] : List Byte).length ≠ announcedLength (.feEncode 2))
      ∧ decode 0x0A = .ok .adRead ∧ ([] : List Byte).length = announcedLength .adRead :=
  ⟨rfl, ⟨rfl, by decide⟩, ⟨by decide, rfl, rfl, by decide⟩, rfl, rfl⟩

theorem witness_IllegalWordFaults :
    (given 0x0000000000000001000F [0x61]).input = .command ⟨0x0000000000000001000F, [0x61]⟩ :: []
      ∧ (given 0x0000000000000001000F [0x61]).faultValid = false ∧ legalWord 0x0000000000000001000F = false :=
  ⟨rfl, rfl, by decide⟩

theorem witness_WrongPayloadFaults :
    (offered w13 .adRead [0x00]).faultValid = false
      ∧ (payload (offered w13 .adRead [0x00])).length ≠ announcedLength .adRead := ⟨rfl, by decide⟩

theorem witness_FaultedBlockAnswersCode :
    ({ offered w13 .adRead [] with faultValid := true, faultCode := 3 }).faultValid = true
      ∧ ({ offered w13 .adRead [] with faultValid := true, faultCode := 3 }).input = .command (commandOf .adRead []) :: [] := ⟨rfl, rfl⟩

/-- Both outcomes of OnlyResetLeavesFault: a command, and a reset. -/
theorem witness_OnlyResetLeavesFault :
    (∃ t, ({ offered w13 .bwClear [] with faultValid := true, faultCode := 3 }).faultValid = true
        ∧ step { offered w13 .bwClear [] with faultValid := true, faultCode := 3 } = .next t ∧ t.faultValid = true)
      ∧ ∃ t, ({ holding w13 [.reset] with faultValid := true, faultCode := 3 }).faultValid = true
        ∧ step { holding w13 [.reset] with faultValid := true, faultCode := 3 } = .next t ∧ t.faultValid = false :=
  ⟨⟨_, rfl, rfl, rfl⟩, _, rfl, rfl, rfl⟩

theorem witness_FaultedContentsUnobservable :
    ∃ s' t', ({ offered w13 .bwExtract [] with faultValid := true, faultCode := 3 }).faultValid = true
      ∧ step { offered w13 .bwExtract [] with faultValid := true, faultCode := 3 } = .next s'
      ∧ step { { offered w13 .bwExtract [] with faultValid := true, faultCode := 3 } with bw := w16, adler := 9 } = .next t' :=
  ⟨_, _, rfl, rfl, rfl⟩

theorem witness_ResetStep :
    ({ holding w15 [.reset, .reset] with faultValid := true, faultCode := 4 }).input = .reset :: [.reset] := rfl

/-- A command that succeeds, one that faults, and one to a faulted block. -/
theorem witness_OneResponsePerCommand :
    (offered w16 .bwExtract []).input = .command (commandOf .bwExtract []) :: []
      ∧ (offered w15 .bwExtract []).input = .command (commandOf .bwExtract []) :: []
      ∧ ({ offered w15 .bwExtract [] with faultValid := true, faultCode := 3 }).input = .command (commandOf .bwExtract []) :: [] :=
  ⟨rfl, rfl, rfl⟩

/-- The clauses of CommandFrame: a success, a command on a faulted block, a command that faults. -/
theorem witness_CommandFrame :
    (∃ t, exec (.adLoad 7) (offered w13 (.adLoad 7) []) = .next t)
      ∧ (∃ t, exec .bwClear { offered w13 .bwClear [] with faultValid := true, faultCode := 3 } = .next t)
      ∧ (∃ t, exec .bwExtract (offered w13 .bwExtract []) = .next t ∧ t.faultValid = true ∧ (offered w13 .bwExtract []).faultValid = false) :=
  ⟨⟨_, rfl⟩, ⟨_, rfl⟩, ⟨_, rfl, by decide +kernel, rfl⟩⟩

theorem witness_StepKeepsInv :
    ∃ t, ({ offered w15 .bwExtract [] with params := ⟨some 1⟩ }).Inv ∧ step { offered w15 .bwExtract [] with params := ⟨some 1⟩ } = .next t := by
  refine ⟨_, ⟨by decide, by decide, by decide, ?_⟩, rfl⟩
  intro r hr
  cases hr

theorem witness_ZeroRunChecksNeverFail :
    ∃ t, step (offered w13 (.zrEncode 1033) []) = .next t ∧ (offered w13 (.zrEncode 1033) []).faultCode ≠ 5
      ∧ (offered w13 (.zrEncode 1033) []).faultCode ≠ 6 := ⟨_, rfl, by decide, by decide⟩

theorem witness_ClearAndLoadIsReset :
    ({ holding w15 (hostActions [commandOf .bwClear [], commandOf (.adLoad 1) []] ++ [HostAction.reset]) with adler := 7 }).faultValid = false
      ∧ ({ holding w15 (hostActions [commandOf .bwClear [], commandOf (.adLoad 1) []] ++ [HostAction.reset]) with adler := 7 }).faultCode = 0
      ∧ ({ holding w15 (hostActions [commandOf .bwClear [], commandOf (.adLoad 1) []] ++ [HostAction.reset]) with adler := 7 }).input
        = hostActions [commandOf .bwClear [], commandOf (.adLoad 1) []] ++ [HostAction.reset] := ⟨rfl, rfl, rfl⟩

/-- Both clauses of PutBitAppends, at the edge of the buffer. -/
theorem witness_PutBitAppends :
    (writerWf w15 = true ∧ w15.cnt = 7 ∧ hasSpace (some 1) w15.done.length 1 = false)
      ∧ (writerWf w15 = true ∧ hasSpace (some 2) w15.done.length 1 = true) ∧ (writerWf w14 = true ∧ w14.cnt ≠ 7) := by decide

/-- A push that exactly fills the buffer, one that does not fit it, the widest one, and one of no bits. -/
theorem witness_BwPushAppendsField :
    (writerWf w14 = true ∧ Ready (.bwPush 0xF 4) { offered w14 (.bwPush 0xF 4) [] with params := ⟨some 2⟩ }
        ∧ hasSpace (some 2) w14.done.length ((w14.cnt.toNat + 4) / 8) = true)
      ∧ (Ready (.bwPush 0xF 4) { offered w14 (.bwPush 0xF 4) [] with params := ⟨some 1⟩ }
        ∧ hasSpace (some 1) w14.done.length ((w14.cnt.toNat + 4) / 8) = false)
      ∧ (Ready (.bwPush 0xFF 63) (offered w15 (.bwPush 0xFF 63) []) ∧ hasSpace none w15.done.length ((w15.cnt.toNat + 63) / 8) = true
        ∧ 63 < 64)
      ∧ Ready (.bwPush 0xFF 0) (offered w15 (.bwPush 0xFF 0) []) :=
  ⟨⟨by decide, ⟨rfl, rfl⟩, by decide⟩, ⟨⟨rfl, rfl⟩, by decide⟩, ⟨⟨rfl, rfl⟩, by decide, by decide⟩, ⟨rfl, rfl⟩⟩

theorem witness_BwPushRevAppendsField :
    (writerWf w14 = true ∧ Ready (.bwPushRev 6 4) { offered w14 (.bwPushRev 6 4) [] with params := ⟨some 2⟩ }
        ∧ hasSpace (some 2) w14.done.length ((w14.cnt.toNat + 4) / 8) = true ∧ 4 < 64)
      ∧ (Ready (.bwPushRev 6 4) { offered w14 (.bwPushRev 6 4) [] with params := ⟨some 1⟩ }
        ∧ hasSpace (some 1) w14.done.length ((w14.cnt.toNat + 4) / 8) = false) :=
  ⟨⟨by decide, ⟨rfl, rfl⟩, by decide, by decide⟩, ⟨rfl, rfl⟩, by decide⟩

theorem witness_PushOverflowFaults :
    writerWf w14 = true ∧ ({ offered w14 (.bwPush 0xF 4) [] with params := ⟨some 1⟩ }).faultValid = false
      ∧ (payload { offered w14 (.bwPush 0xF 4) [] with params := ⟨some 1⟩ }).length = 0
      ∧ hasSpace (some 1) w14.done.length ((w14.cnt.toNat + 4) / 8) = false := ⟨by decide, rfl, rfl, by decide⟩

/-- Both values BW_ALIGNED answers. -/
theorem witness_BwAlignedAnswers :
    (Ready .bwAligned (offered w16 .bwAligned []) ∧ w16.cnt = 0) ∧ (Ready .bwAligned (offered w13 .bwAligned []) ∧ w13.cnt ≠ 0) :=
  ⟨⟨⟨rfl, rfl⟩, rfl⟩, ⟨rfl, rfl⟩, by decide⟩

theorem witness_BwClearEmpties : Ready .bwClear (offered w15 .bwClear []) := ⟨rfl, rfl⟩

/-- Both clauses of BwExtractReturnsDone. -/
theorem witness_BwExtractReturnsDone :
    (Ready .bwExtract (offered w16 .bwExtract []) ∧ w16.cnt = 0) ∧ (Ready .bwExtract (offered ⟨[], 1, 1⟩ .bwExtract []) ∧ (1 : BitVec 3) ≠ 0) :=
  ⟨⟨⟨rfl, rfl⟩, rfl⟩, ⟨rfl, rfl⟩, by decide⟩

theorem witness_PushSplits : writerWf w15 = true := by decide

theorem witness_PushesPackTheStream :
    List.replicate 16 true = List.replicate 3 true ++ List.replicate 13 true ∧ (List.replicate 16 true).length = 8 * 2 := ⟨rfl, rfl⟩

theorem witness_BytewisePushAgrees : writerWf w15 = true ∧ writerWf BitWriter.empty = true := by decide

/-- Both clauses of AlignStoredAppendsStoredBlock: aligned, one bit pending, the header that fills the byte, seven bits pending. -/
theorem witness_AlignStoredAppendsStoredBlock :
    (writerWf w16 = true ∧ w16.cnt = 0) ∧ (writerWf ⟨[], 1, 1⟩ = true ∧ (1 : BitVec 3) ≠ 0)
      ∧ (writerWf ⟨[], 0x1F, 5⟩ = true ∧ (5 : BitVec 3) ≠ 0) ∧ (writerWf w15 = true ∧ w15.cnt ≠ 0) := by decide

/-- V26 with a buffer of exactly 8 bytes. -/
theorem witness_FeEncodeAnswersFixedBlock :
    Ready (.feEncode 6) { offered w15 (.feEncode 6) (List.replicate 6 0x90) with params := ⟨some 8⟩ }
      ∧ capAtLeast (some 8) ((fixedBlockStream (List.replicate 6 0x90)).length / 8) = true := ⟨⟨rfl, rfl⟩, by decide +kernel⟩

theorem witness_FeEncodeOverflowFaults :
    Ready (.feEncode 6) { offered w15 (.feEncode 6) (List.replicate 6 0x90) with params := ⟨some 7⟩ }
      ∧ capAtLeast (some 7) ((fixedBlockStream (List.replicate 6 0x90)).length / 8) = false := ⟨⟨rfl, rfl⟩, by decide +kernel⟩

/-- A payload of the costliest bytes with a buffer of exactly the bound, 8 bytes for two of them; and the empty payload. -/
theorem witness_FixedBlockFits :
    (Ready (.feEncode 2) { offered w15 (.feEncode 2) [0xFF, 0xFF] with params := ⟨some 8⟩ }
        ∧ capAtLeast (some 8) ((9 * 2 + 13 + 7) / 8 + 4) = true)
      ∧ (Ready (.feEncode 0) { offered w15 (.feEncode 0) [] with params := ⟨some 6⟩ } ∧ capAtLeast (some 6) ((9 * 0 + 13 + 7) / 8 + 4) = true) :=
  ⟨⟨⟨rfl, rfl⟩, by decide⟩, ⟨rfl, rfl⟩, by decide⟩

theorem witness_FixedBlockDecodes :
    Ready (.feEncode 2) (offered w15 (.feEncode 2) [0x00, 0xFF]) ∧ (offered w15 (.feEncode 2) [0x00, 0xFF]).params.bwCap = none :=
  ⟨⟨rfl, rfl⟩, rfl⟩

theorem witness_EncodersClobberWriter :
    (∃ t, (∃ len, Instr.feEncode 1 = .feEncode len) ∧ exec (.feEncode 1) (offered w15 (.feEncode 1) [0x61]) = .next t ∧ t.faultValid = false)
      ∧ (∃ t, (∃ n, Instr.zrEncode 1033 = .zrEncode n) ∧ exec (.zrEncode 1033) (offered w15 (.zrEncode 1033) []) = .next t
        ∧ t.faultValid = false) :=
  ⟨⟨_, ⟨1, rfl⟩, rfl, by decide +kernel⟩, ⟨_, ⟨1033, rfl⟩, rfl, by decide +kernel⟩⟩

/-- The longest run of the small path with a buffer of exactly its 1038 bytes, and the empty one. -/
theorem witness_ZrEncodeSmallRun :
    (Ready (.zrEncode 1032) { offered w15 (.zrEncode 1032) [] with params := ⟨some 1038⟩ } ∧ capAtLeast (some 1038) (1032 + 6) = true)
      ∧ (Ready (.zrEncode 0) (offered w15 (.zrEncode 0) []) ∧ capAtLeast none (0 + 6) = true) :=
  ⟨⟨⟨rfl, rfl⟩, by decide⟩, ⟨rfl, rfl⟩, by decide⟩

/-- The shortest run of the large path with a buffer of exactly its 15 bytes, and the longest run. -/
theorem witness_ZrEncodeLargeRun :
    (Ready (.zrEncode 1033) { offered w15 (.zrEncode 1033) [] with params := ⟨some 15⟩ } ∧ 1032 < 1033
        ∧ capAtLeast (some 15) ((preambleStream (excessSymbol 1033).code).length / 8) = true)
      ∧ (Ready (.zrEncode (2 ^ 64 - 1)) (offered w15 (.zrEncode (2 ^ 64 - 1)) []) ∧ 1032 < 2 ^ 64 - 1
        ∧ capAtLeast none ((preambleStream (excessSymbol (2 ^ 64 - 1)).code).length / 8) = true) :=
  ⟨⟨⟨rfl, rfl⟩, by decide, by decide +kernel⟩, ⟨rfl, rfl⟩, by decide, by decide +kernel⟩

/-- Both clauses of ZrEncodeOverflowFaults, one byte short. -/
theorem witness_ZrEncodeOverflowFaults :
    (Ready (.zrEncode 1032) { offered w15 (.zrEncode 1032) [] with params := ⟨some 1037⟩ } ∧ capAtLeast (some 1037) (1032 + 6) = false)
      ∧ (Ready (.zrEncode 1033) { offered w15 (.zrEncode 1033) [] with params := ⟨some 14⟩ }
        ∧ capAtLeast (some 14) ((preambleStream (excessSymbol 1033).code).length / 8) = false) :=
  ⟨⟨⟨rfl, rfl⟩, by decide⟩, ⟨rfl, rfl⟩, by decide +kernel⟩

theorem witness_ZeroRunSizes : 1032 < 1033 ∧ 1032 < 2 ^ 64 - 1 := by decide

theorem witness_PreambleTable : 1032 < 1033 ∧ (excessSymbol 1033).code = 257 ∧ 1032 < 1260 ∧ (excessSymbol 1260).code = 284 := by
  decide +kernel

/-- The edges of the ranges of LengthCodeTable. -/
theorem witness_LengthCodeTable : (3 ≤ 3 ∧ 3 ≤ 258) ∧ (3 ≤ 258 ∧ 258 ≤ 258) ∧ (2 < 3 ∨ 258 < 2) ∧ (259 < 3 ∨ 258 < 259) := by decide

theorem witness_ZeroRunCodesCanonical : (257 ≤ 257 ∧ 257 ≤ 284) ∧ (257 ≤ 284 ∧ 284 ≤ 284) := by decide

/-- Both paths, in a buffer of exactly 1038 bytes. -/
theorem witness_ZeroRunDecodes :
    (1032 < 2 ^ 64 ∧ Ready (.zrEncode 1032) { offered w15 (.zrEncode 1032) [] with params := ⟨some 1038⟩ }
        ∧ capAtLeast (some 1038) 1038 = true)
      ∧ (2 ^ 64 - 1 < 2 ^ 64 ∧ Ready (.zrEncode (2 ^ 64 - 1)) (offered w15 (.zrEncode (2 ^ 64 - 1)) []) ∧ capAtLeast none 1038 = true) :=
  ⟨⟨by decide, ⟨rfl, rfl⟩, by decide⟩, by decide, ⟨rfl, rfl⟩, by decide⟩

theorem witness_AdLoadWrites : Ready (.adLoad 0xFFFFFFFF) (offered w15 (.adLoad 0xFFFFFFFF) []) := ⟨rfl, rfl⟩

theorem witness_AdCombineFolds : Ready (.adCombine 3) (offered w15 (.adCombine 3) (bytes [0x61, 0x62, 0x63])) := ⟨rfl, rfl⟩

theorem witness_AdZeroRunClosedForm : Ready (.adZeroRun (2 ^ 64 - 1)) (offered w15 (.adZeroRun (2 ^ 64 - 1)) []) := ⟨rfl, rfl⟩

theorem witness_AdReadAnswers : Ready .adRead (offered w15 .adRead []) := ⟨rfl, rfl⟩

theorem witness_AdlerLaws : adlerCanonical 0xFFF0FFF0 = true ∧ adlerCanonical 1 = true := by decide

theorem witness_AdlerTotalOnAnyChecksum : 1 ≤ 1 := by decide

theorem witness_StepKeepsCanonicalAdler :
    ∃ t, adlerCanonical (offered w15 (.adLoad 0xFFF0FFF0) []).adler = true ∧ step (offered w15 (.adLoad 0xFFF0FFF0) []) = .next t
      ∧ ∀ c rest v, (offered w15 (.adLoad 0xFFF0FFF0) []).input = .command c :: rest → decode c.word = .ok (.adLoad v) →
        adlerCanonical v = true := by
  refine ⟨_, by decide, rfl, ?_⟩
  intro c rest v h1 h2
  cases h1
  have h3 : decode (commandOf (.adLoad 0xFFF0FFF0) []).word = .ok (.adLoad 0xFFF0FFF0) := rfl
  rw [h3] at h2
  cases h2
  decide

/-- FINAL_BLOCK in a buffer of exactly 5 bytes. -/
theorem witness_FinalBlockBytes :
    ({ holding w15 (hostActions finalBlockCommands ++ [HostAction.reset]) with params := ⟨some 5⟩ }).faultValid = false
      ∧ capAtLeast (some 5) 5 = true
      ∧ ({ holding w15 (hostActions finalBlockCommands ++ [HostAction.reset]) with params := ⟨some 5⟩ }).input
        = hostActions finalBlockCommands ++ [HostAction.reset] := ⟨rfl, by decide, rfl⟩

/-- The writer with its ALIGN_STORED commands offered. -/
def toAlign (w : BitWriter) : State := holding w (hostActions (alignStoredCommands w.cnt.toNat) ++ [HostAction.reset])

/-- What AlignStoredMacro asks of a state. -/
def meetsAlignStored (s : State) : Prop :=
  s.faultValid = false ∧ writerWf s.bw = true ∧ s.params.bwCap = none
    ∧ s.input = hostActions (alignStoredCommands s.bw.cnt.toNat) ++ [HostAction.reset]

/-- ALIGN_STORED from an aligned writer, and with 5 and 6 bits pending, where the header fills and straddles the byte. -/
theorem witness_AlignStoredMacro :
    meetsAlignStored (toAlign w16) ∧ meetsAlignStored (toAlign ⟨[], 0x1F, 5⟩) ∧ meetsAlignStored (toAlign ⟨[], 0x3F, 6⟩) :=
  ⟨⟨rfl, by decide, rfl, rfl⟩, ⟨rfl, by decide, rfl, rfl⟩, ⟨rfl, by decide, rfl, rfl⟩⟩

theorem witness_LengthAccuracy : 0 < 1 ∧ 0 < 65536 := by decide

/-- P3's calls, and a call at the edge of the 64-bit operand. -/
def someCalls : List ZsCall := [.push [0x61], .pushZeroes 1033, .pushZeroes (2 ^ 64 - 1)]

/-- A second stream on the same block: an earlier answer stands in the list, the writer holds bits, and the host has more to do. -/
def secondStream : State :=
  { holding w15 (hostActions (streamCommands someCalls) ++ [HostAction.reset]) with responses := [⟨0, .scalar, 1, [], []⟩] }

theorem witness_ZlibStreamRoundTrip :
    (∀ x ∈ someCalls, callInRange x = true) ∧ secondStream.faultValid = false ∧ secondStream.adler = 1 ∧ secondStream.params.bwCap = none
      ∧ secondStream.input = hostActions (streamCommands someCalls) ++ [HostAction.reset] := ⟨by decide, rfl, rfl, rfl, rfl⟩

theorem witness_CombineValues :
    secondStream.faultValid = false ∧ (bytes [0x61, 0x62, 0x63]).length < 2 ^ 64 ∧ 2 ^ 64 - 1 < 2 ^ 64 := ⟨rfl, by decide, by decide⟩

end Sys2Proof.Tests
end

section
/-! PROOFS of the statements of 10_state.md: the register values after reset, the frame of a command, the invariant of the block, the
encoders' use of the writer, and the canonical checksum. -/

namespace Sys2Proof.Machine

/-! ### What a command or a step that answers has done -/

/-- The next state of a command (R122): the answer of a faulted block, a raised fault, or the command's own rule answered. -/
theorem exec_next_cases {i : Instr} {s t : State} (h : exec i s = .next t) :
    (s.faultValid = true ∧ t = answerFaulted s)
    ∨ (s.faultValid = false ∧ ∃ e, t = raiseFault e s)
    ∨ (Ready i s ∧ ∃ s' r, bodyOf i s = .ok (s', r) ∧ t = answer s' r) := by
  rcases exec_cases i s with ⟨hf, he⟩ | ⟨hf, -, he⟩ | ⟨hrdy, e, -, he⟩ | ⟨hrdy, s', r, hb, he⟩ <;> rw [he] at h <;> cases h
  · exact .inl ⟨hf, rfl⟩
  · exact .inr (.inl ⟨hf, _, rfl⟩)
  · exact .inr (.inl ⟨hrdy.1, e, rfl⟩)
  · exact .inr (.inr ⟨hrdy, s', r, hb, rfl⟩)

/-- A command that leaves the block unfaulted ran its own rule (R122). -/
theorem exec_unfaulted {i : Instr} {s t : State} (h : exec i s = .next t) (hf : t.faultValid = false) :
    Ready i s ∧ ∃ s' r, bodyOf i s = .ok (s', r) ∧ t = answer s' r := by
  rcases exec_next_cases h with ⟨hs, rfl⟩ | ⟨-, e, rfl⟩ | hok
  · exact absurd (hs.symm.trans hf) (by decide)
  · cases hf
  · exact hok

/-- The next state of a step (R14, R122, R140): nothing, a reset, the answer of a faulted block, a raised fault, or a command's own
rule answered. -/
theorem step_next_cases {s t : State} (h : step s = .next t) :
    t = s
    ∨ (∃ later, t = applyReset later s)
    ∨ (s.faultValid = true ∧ t = answerFaulted s)
    ∨ (s.faultValid = false ∧ ∃ e, t = raiseFault e s)
    ∨ ∃ c rest i s' r, s.input = .command c :: rest ∧ decode c.word = .ok i ∧ bodyOf i s = .ok (s', r) ∧ t = answer s' r := by
  rcases step_cases h with ⟨-, rfl⟩ | ⟨later, -, rfl⟩ | ⟨-, -, -, -, -, rfl⟩ | ⟨c, rest, i, hin, hdec, hexec⟩
  · exact .inl rfl
  · exact .inr (.inl ⟨later, rfl⟩)
  · by_cases hf : s.faultValid = true
    · exact .inr (.inr (.inl ⟨hf, if_pos hf⟩))
    · exact .inr (.inr (.inr (.inl ⟨by simpa using hf, _, if_neg hf⟩)))
  · rcases exec_next_cases hexec with hf | he | ⟨-, s', r, hb, ht⟩
    · exact .inr (.inr (.inl hf))
    · exact .inr (.inr (.inr (.inl he)))
    · exact .inr (.inr (.inr (.inr ⟨c, rest, i, s', r, hin, hdec, hb, ht⟩)))

/-! ### What a command's own rule may do -/

/-- `FixedEncode` leaves the writer cleared (R72). -/
theorem fixedEncode_ok_cleared {cap : Option Nat} {data : List Byte} {w : BitWriter} {p : List Byte × BitWriter}
    (h : fixedEncode cap data w = .ok p) : p.2 = BitWriter.empty := by
  rw [fixedEncode_eq] at h
  split at h <;> cases h
  rfl

/-- `ZeroRunEncode` leaves the writer cleared (R86, R93). -/
theorem zeroRunEncode_ok_cleared {cap : Option Nat} {n : Nat} {w : BitWriter} {p : EncodedBlock × BitWriter}
    (h : zeroRunEncode cap n w = .ok p) : p.2 = BitWriter.empty := by
  rcases zeroRunEncode_cases cap n w with ⟨e, he⟩ | he <;> rw [he] at h <;> cases h
  rfl

/-- What the rule of a command does when it answers, command by command (R61 to R65, R72, R80, R102 to R105): from `s` to the next
registers and the answer. -/
inductive RuleEffect (s : State) : Instr → State → Response → Prop where
  | bwPush (v : Word64) (n : Nat) (bits : List Bool) (w : BitWriter) (h : putBits s.params.bwCap bits s.bw = .ok w) :
      RuleEffect s (.bwPush v n) (setBw s w) respNone
  | bwPushRev (v : Word64) (n : Nat) (bits : List Bool) (w : BitWriter) (h : putBits s.params.bwCap bits s.bw = .ok w) :
      RuleEffect s (.bwPushRev v n) (setBw s w) respNone
  | bwAligned : RuleEffect s .bwAligned s (respScalar (alignedScalar s.bw))
  | bwClear : RuleEffect s .bwClear (setBw s BitWriter.empty) respNone
  | bwExtract (b : List Byte) : RuleEffect s .bwExtract s (respPlain b)
  | feEncode (len : Nat) (e : EncodedBlock) : RuleEffect s (.feEncode len) (setBw s BitWriter.empty) (respBlock e)
  | zrEncode (n : Nat) (e : EncodedBlock) : RuleEffect s (.zrEncode n) (setBw s BitWriter.empty) (respBlock e)
  | adLoad (c : Word32) : RuleEffect s (.adLoad c) (setAdler s c) (respScalar (zextAdler c))
  | adCombine (len : Nat) : RuleEffect s (.adCombine len) (setAdler s (adlerCombine s.adler (payload s)))
      (respScalar (zextAdler (adlerCombine s.adler (payload s))))
  | adZeroRun (n : Nat) : RuleEffect s (.adZeroRun n) (setAdler s (adlerZeroRun s.adler n))
      (respScalar (zextAdler (adlerZeroRun s.adler n)))
  | adRead : RuleEffect s .adRead s (respScalar (zextAdler s.adler))

/-- A rule that answers has one of these effects. -/
theorem bodyOf_effect {i : Instr} {s s' : State} {r : Response} (h : bodyOf i s = .ok (s', r)) : RuleEffect s i s' r := by
  cases i <;> simp only [bodyOf, bind, Except.bind, pure, Except.pure] at h
  case bwPush v n =>
    split at h <;> cases h
    exact .bwPush v n _ _ ‹_›
  case bwPushRev v n =>
    split at h <;> cases h
    exact .bwPushRev v n _ _ ‹_›
  case bwExtract =>
    split at h <;> cases h
    exact .bwExtract _
  case feEncode len =>
    split at h <;> cases h
    rw [fixedEncode_ok_cleared ‹_›]
    exact .feEncode len (.plain _)
  case zrEncode n =>
    split at h <;> cases h
    rw [zeroRunEncode_ok_cleared ‹_›]
    exact .zrEncode n _
  all_goals
    cases h
    constructor

/-- What a rule does to the writer: nothing, a push of some bits, or a clear; and which commands do the last two (R61 to R64, R72, R80). -/
theorem RuleEffect.bw_cases {i : Instr} {s s' : State} {r : Response} (h : RuleEffect s i s' r) :
    s'.bw = s.bw
    ∨ (((∃ v n, i = .bwPush v n) ∨ ∃ v n, i = .bwPushRev v n) ∧ ∃ bits, putBits s.params.bwCap bits s.bw = .ok s'.bw)
    ∨ ((i = .bwClear ∨ (∃ n, i = .feEncode n) ∨ ∃ n, i = .zrEncode n) ∧ s'.bw = BitWriter.empty) := by
  cases h with
  | bwPush v n bits w hput => exact .inr (.inl ⟨.inl ⟨v, n, rfl⟩, bits, hput⟩)
  | bwPushRev v n bits w hput => exact .inr (.inl ⟨.inr ⟨v, n, rfl⟩, bits, hput⟩)
  | bwClear => exact .inr (.inr ⟨.inl rfl, rfl⟩)
  | feEncode len e => exact .inr (.inr ⟨.inr (.inl ⟨len, rfl⟩), rfl⟩)
  | zrEncode n e => exact .inr (.inr ⟨.inr (.inr ⟨n, rfl⟩), rfl⟩)
  | bwAligned | bwExtract | adLoad | adCombine | adZeroRun | adRead => exact .inl rfl

/-- What a rule does to the checksum: the three commands that write it, and the value each writes (R102 to R104). -/
theorem RuleEffect.adler_cases {i : Instr} {s s' : State} {r : Response} (h : RuleEffect s i s' r) :
    s'.adler = s.adler
    ∨ i = .adLoad s'.adler
    ∨ (∃ n, i = .adCombine n ∧ s'.adler = adlerCombine s.adler (payload s))
    ∨ ∃ n, i = .adZeroRun n ∧ s'.adler = adlerZeroRun s.adler n := by
  cases h with
  | adLoad c => exact .inr (.inl rfl)
  | adCombine len => exact .inr (.inr (.inl ⟨len, rfl, rfl⟩))
  | adZeroRun n => exact .inr (.inr (.inr ⟨n, rfl, rfl⟩))
  | bwPush | bwPushRev | bwAligned | bwClear | bwExtract | feEncode | zrEncode | adRead => exact .inl rfl

/-- An encoder that answers leaves the writer cleared (R12). -/
theorem RuleEffect.encoder_cleared {i : Instr} {s s' : State} {r : Response} (h : RuleEffect s i s' r)
    (hi : (∃ len, i = .feEncode len) ∨ ∃ n, i = .zrEncode n) : s'.bw = BitWriter.empty := by
  rcases hi with ⟨len, rfl⟩ | ⟨n, rfl⟩ <;> cases h <;> rfl

/-! ### The form of an answer (R49) -/

@[simp] theorem responseWf_respBlock (e : EncodedBlock) : responseWf (respBlock e) = true := by cases e <;> rfl

@[simp] theorem respBlock_status (e : EncodedBlock) : (respBlock e).status = 0 := by cases e <;> rfl

@[simp] theorem responseWf_respStatus (code : BitVec 4) : responseWf (respStatus code) = true := by
  simp [responseWf, respStatus]

/-- A rule answers with status 0, in the form of its variant (R49). -/
theorem RuleEffect.response_ok {i : Instr} {s s' : State} {r : Response} (h : RuleEffect s i s' r) :
    responseWf r = true ∧ r.status = 0 := by
  cases h with
  | feEncode _ e | zrEncode _ e => exact ⟨responseWf_respBlock e, respBlock_status e⟩
  | bwPush | bwPushRev | bwAligned | bwClear | bwExtract | adLoad | adCombine | adZeroRun | adRead => exact ⟨rfl, rfl⟩

/-! ### The invariant of the block -/

/-- Pushed bits keep the unfilled bits 0 and the completed bytes within BW_CAP (R11, R60). -/
theorem putBits_ok_sound {cap : Option Nat} {bits : List Bool} {w w' : BitWriter} (hwf : writerWf w = true)
    (hcap : fitsCap cap w = true) (h : putBits cap bits w = .ok w') : writerWf w' = true ∧ fitsCap cap w' = true := by
  rw [putBits_wf cap bits w hwf] at h
  split at h <;> cases h
  rename_i hspace
  refine ⟨writerWf_packed _, ?_⟩
  cases cap with
  | none => rfl
  | some c =>
    have hlen : (packed (streamOf w ++ bits)).done.length = w.done.length + (w.cnt.toNat + bits.length) / 8 := by
      rw [packed_done_length, List.length_append, streamOf_length]
      omega
    simp only [fitsCap, hasSpace, Bool.or_eq_true, decide_eq_true_eq] at hcap hspace ⊢
    omega

theorem fitsCap_empty (cap : Option Nat) : fitsCap cap BitWriter.empty = true := by
  cases cap <;> simp [fitsCap]

/-- R22's values, at any capacity and whatever the host has still to offer, meet the invariant. -/
theorem inv_applyReset (later : List HostAction) (s : State) : (applyReset later s).Inv :=
  ⟨rfl, fitsCap_empty _, rfl, fun r hr => absurd hr (List.not_mem_nil (a := r))⟩

/-- One more answer keeps the invariant if the answer meets it (R49, R124). -/
theorem inv_answer {s : State} {r : Response} (h : s.Inv) (hr : responseWf r = true) (hst : statusOk s r = true) :
    (answer s r).Inv := by
  obtain ⟨hwf, hcap, hreg, hresp⟩ := h
  refine ⟨hwf, hcap, hreg, fun x hx => ?_⟩
  rcases List.mem_append.mp hx with hold | hnew
  · exact hresp x hold
  · rw [List.mem_singleton.mp hnew]
    exact ⟨hr, hst⟩

/-- Recording a fault on an unfaulted block keeps the invariant: every answer so far is a success (R15, R123). -/
theorem inv_latchFault {s : State} (h : s.Inv) (hf : s.faultValid = false) (e : FaultCode) : (latchFault s (faultBits e)).Inv := by
  obtain ⟨hwf, hcap, -, hresp⟩ := h
  refine ⟨hwf, hcap, by cases e <;> rfl, fun r hr => ?_⟩
  obtain ⟨hform, hst⟩ := hresp r hr
  have hzero : r.status = 0 := by simpa [statusOk, hf] using hst
  exact ⟨hform, by simp [statusOk, hzero]⟩

/-- The answer of a faulted block keeps the invariant (R124). -/
theorem inv_answerFaulted {s : State} (h : s.Inv) (hf : s.faultValid = true) : (answerFaulted s).Inv :=
  inv_answer h (responseWf_respStatus _) (by simp [statusOk, respStatus, hf])

/-- A raised fault keeps the invariant (R123). -/
theorem inv_raiseFault {s : State} (h : s.Inv) (hf : s.faultValid = false) (e : FaultCode) : (raiseFault e s).Inv :=
  inv_answer (inv_latchFault h hf e) (responseWf_respStatus _) (by simp [statusOk, respStatus])

/-- A rule that answers keeps the writer sound (R11). -/
theorem bodyOf_writer_sound {i : Instr} {s s' : State} {r : Response} (h : bodyOf i s = .ok (s', r)) (hwf : writerWf s.bw = true)
    (hcap : fitsCap s.params.bwCap s.bw = true) : writerWf s'.bw = true ∧ fitsCap s.params.bwCap s'.bw = true := by
  rcases (bodyOf_effect h).bw_cases with hbw | ⟨-, bits, hput⟩ | ⟨-, hbw⟩
  · rw [hbw]; exact ⟨hwf, hcap⟩
  · exact putBits_ok_sound hwf hcap hput
  · rw [hbw]; exact ⟨rfl, fitsCap_empty _⟩

/-- A rule that answers keeps the invariant, and so does its answer. -/
theorem inv_answer_bodyOf {i : Instr} {s s' : State} {r : Response} (hinv : s.Inv) (h : bodyOf i s = .ok (s', r)) :
    (answer s' r).Inv := by
  obtain ⟨hform, hst⟩ := (bodyOf_effect h).response_ok
  refine inv_answer ?_ hform (by simp [statusOk, hst])
  obtain ⟨hwf, hcap, hreg, hresp⟩ := hinv
  obtain ⟨hwf', hcap'⟩ := bodyOf_writer_sound h hwf hcap
  rw [bodyOf_frame h]
  exact ⟨hwf', hcap', hreg, hresp⟩

/-- Settles O17, case by case over what a step can do. -/
theorem stepKeepsInv : Obligations.StepKeepsInv := by
  intro s t hinv hstep
  rcases step_next_cases hstep with rfl | ⟨later, rfl⟩ | ⟨hf, rfl⟩ | ⟨hf, e, rfl⟩ | ⟨-, -, i, s', r, -, -, hbody, rfl⟩
  · exact hinv
  · exact inv_applyReset later s
  · exact inv_answerFaulted hinv hf
  · exact inv_raiseFault hinv hf e
  · exact inv_answer_bodyOf hinv hbody

/-! ### The frame of a command -/

/-- Every command is consumed and answered once, and BW_CAP stays (R38, R49). -/
theorem exec_consumes_answers {i : Instr} {s t : State} (h : exec i s = .next t) :
    t.params = s.params ∧ t.input = s.input.tail ∧ ∃ r, t.responses = s.responses ++ [r] := by
  rcases exec_next_cases h with ⟨-, rfl⟩ | ⟨-, e, rfl⟩ | ⟨-, s', r, hbody, rfl⟩
  · exact ⟨rfl, rfl, _, rfl⟩
  · exact ⟨rfl, rfl, _, rfl⟩
  · rw [bodyOf_frame hbody]
    exact ⟨rfl, rfl, r, rfl⟩

/-- A command keeps a recorded fault (R124), and one that records a fault keeps the writer and the checksum (log entry 5). -/
theorem exec_fault_frame {i : Instr} {s t : State} (h : exec i s = .next t) :
    (s.faultValid = true → t.faultValid = true ∧ t.faultCode = s.faultCode)
      ∧ (t.faultValid = true → s.faultValid = false → t.bw = s.bw ∧ t.adler = s.adler) := by
  rcases exec_next_cases h with ⟨hf, rfl⟩ | ⟨hf, e, rfl⟩ | ⟨⟨hf, -⟩, s', r, hbody, rfl⟩
  · exact ⟨fun _ => ⟨hf, rfl⟩, fun _ _ => ⟨rfl, rfl⟩⟩
  · exact ⟨fun hs => absurd (hs.symm.trans hf) (by decide), fun _ _ => ⟨rfl, rfl⟩⟩
  · have hvalid : (answer s' r).faultValid = false := by rw [bodyOf_frame hbody]; exact hf
    exact ⟨fun hs => absurd (hs.symm.trans hf) (by decide), fun ht => absurd (ht.symm.trans hvalid) (by decide)⟩

/-- Only AD_LOAD, AD_COMBINE and AD_ZERO_RUN write the checksum (R13). -/
theorem exec_adler_frame {i : Instr} {s t : State} (h : exec i s = .next t) :
    t.adler = s.adler ∨ (∃ c, i = .adLoad c) ∨ (∃ n, i = .adCombine n) ∨ ∃ n, i = .adZeroRun n := by
  rcases exec_next_cases h with ⟨-, rfl⟩ | ⟨-, e, rfl⟩ | ⟨-, s', r, hbody, rfl⟩
  · exact .inl rfl
  · exact .inl rfl
  · rcases (bodyOf_effect hbody).adler_cases with hkeep | hload | ⟨n, hcomb, -⟩ | ⟨n, hrun, -⟩
    · exact .inl hkeep
    · exact .inr (.inl ⟨_, hload⟩)
    · exact .inr (.inr (.inl ⟨n, hcomb⟩))
    · exact .inr (.inr (.inr ⟨n, hrun⟩))

/-- Only the pushes, BW_CLEAR and the encoders write the writer (R11, R12). -/
theorem exec_bw_frame {i : Instr} {s t : State} (h : exec i s = .next t) :
    t.bw = s.bw ∨ (∃ v n, i = .bwPush v n) ∨ (∃ v n, i = .bwPushRev v n) ∨ i = .bwClear ∨ (∃ n, i = .feEncode n)
      ∨ ∃ n, i = .zrEncode n := by
  rcases exec_next_cases h with ⟨-, rfl⟩ | ⟨-, e, rfl⟩ | ⟨-, s', r, hbody, rfl⟩
  · exact .inl rfl
  · exact .inl rfl
  · rcases (bodyOf_effect hbody).bw_cases with hkeep | ⟨hpush | hpushRev, -⟩ | ⟨hclear, -⟩
    · exact .inl hkeep
    · exact .inr (.inl hpush)
    · exact .inr (.inr (.inl hpushRev))
    · exact .inr (.inr (.inr hclear))

/-- Settles O16, register by register. -/
theorem commandFrame : Obligations.CommandFrame := by
  intro i s t h
  obtain ⟨hparams, hinput, hresp⟩ := exec_consumes_answers h
  obtain ⟨hstays, hkeeps⟩ := exec_fault_frame h
  exact ⟨hparams, hinput, hresp, exec_adler_frame h, exec_bw_frame h, hstays, hkeeps⟩

/-! ### The encoders and the writer -/

/-- `FixedEncode` does not read the writer it is given (R12, R72). -/
theorem fixedEncode_writer (cap : Option Nat) (data : List Byte) (w w' : BitWriter) :
    fixedEncode cap data w = fixedEncode cap data w' := by
  rw [fixedEncode_eq, fixedEncode_eq]

/-- `ZeroRunEncode` does not read the writer it is given (R12, R86, R88). -/
theorem zeroRunEncode_writer (cap : Option Nat) (n : Nat) (w w' : BitWriter) :
    zeroRunEncode cap n w = zeroRunEncode cap n w' := by
  by_cases hn : n ≤ zrThreshold
  · simp only [zeroRunEncode, if_pos hn, fixedEncode_writer cap (zeros n) w w']
  · have hlarge : 1032 < n := Nat.lt_of_not_le hn
    simp only [zeroRunEncode, if_neg hn, zeroRunLarge_eq cap n _ hlarge]

/-- The rule of an encoder gives the same from any writer (R12, R142). -/
theorem bodyOf_encoder_setBw {i : Instr} (hi : (∃ len, i = .feEncode len) ∨ ∃ n, i = .zrEncode n) (s : State) (w : BitWriter) :
    bodyOf i (setBw s w) = bodyOf i s := by
  rcases hi with ⟨len, rfl⟩ | ⟨n, rfl⟩
  · simp only [bodyOf, setBw_params, setBw_bw, fixedEncode_writer _ _ w s.bw]
    rfl
  · simp only [bodyOf, setBw_params, setBw_bw, zeroRunEncode_writer _ _ w s.bw]
    rfl

/-- Settles O39: an encoder that completes ran its rule, and the rule does not see the writer. -/
theorem encodersClobberWriter : Obligations.EncodersClobberWriter := by
  intro i s t w hi hexec hf
  obtain ⟨hready, s', r, hbody, rfl⟩ := exec_unfaulted hexec hf
  have hready' : Ready i (setBw s w) := hready
  exact ⟨(bodyOf_effect hbody).encoder_cleared hi, exec_ok hready' ((bodyOf_encoder_setBw hi s w).trans hbody)⟩

/-! ### The canonical checksum -/

theorem adlerCanonical_iff (c : Word32) : adlerCanonical c = true ↔ adlerS1 c ≤ 65520 ∧ adlerS2 c ≤ 65520 := by
  simp [adlerCanonical]

/-- The loop of R100 keeps both sub-sums at most 65520. -/
theorem adlerSums_le (xs : List Byte) (p : Nat × Nat) (h1 : p.1 ≤ 65520) (h2 : p.2 ≤ 65520) :
    (adlerSums xs p).1 ≤ 65520 ∧ (adlerSums xs p).2 ≤ 65520 := by
  induction xs generalizing p with
  | nil => exact ⟨h1, h2⟩
  | cons x xs ih =>
    have hmod (k : Nat) : k % adlerMod ≤ 65520 := Nat.le_of_lt_succ (Nat.mod_lt k (by decide))
    exact ih _ (hmod _) (hmod _)

/-- AD_COMBINE's update keeps a canonical checksum canonical (R23, R100). -/
theorem adlerCombine_canonical {c : Word32} (h : adlerCanonical c = true) (data : List Byte) :
    adlerCanonical (adlerCombine c data) = true := by
  rw [adlerCanonical_iff] at h ⊢
  have hsums := adlerSums_le data (adlerS1 c, adlerS2 c) h.1 h.2
  rwa [← adlerCombine_halves] at hsums

/-- AD_ZERO_RUN's update keeps a canonical checksum canonical (R23, R101). -/
theorem adlerZeroRun_canonical {c : Word32} (h : adlerCanonical c = true) (n : Nat) : adlerCanonical (adlerZeroRun c n) = true := by
  rw [adlerCanonical_iff] at h ⊢
  obtain ⟨hs1, hs2⟩ := adlerZeroRun_halves c n
  omega

/-- A rule that answers keeps a canonical checksum canonical, unless it is AD_LOAD of another value (R23). -/
theorem bodyOf_adler_canonical {i : Instr} {s s' : State} {r : Response} (h : bodyOf i s = .ok (s', r))
    (hs : adlerCanonical s.adler = true) (hload : ∀ v, i = .adLoad v → adlerCanonical v = true) :
    adlerCanonical s'.adler = true := by
  rcases (bodyOf_effect h).adler_cases with hkeep | hl | ⟨n, -, hc⟩ | ⟨n, -, hz⟩
  · rwa [hkeep]
  · exact hload _ hl
  · rw [hc]; exact adlerCombine_canonical hs _
  · rw [hz]; exact adlerZeroRun_canonical hs n

/-- Settles O54, case by case over what a step can do. -/
theorem stepKeepsCanonicalAdler : Obligations.StepKeepsCanonicalAdler := by
  intro s t hs hstep hload
  rcases step_next_cases hstep with rfl | ⟨later, rfl⟩ | ⟨-, rfl⟩ | ⟨-, e, rfl⟩ | ⟨c, rest, i, s', r, hin, hdec, hbody, rfl⟩
  · exact hs
  · exact (adlerCanonical_iff 1).mpr (by decide)
  · exact hs
  · exact hs
  · rw [answer_adler]
    exact bodyOf_adler_canonical hbody hs fun v hv => hload c rest v hin (hv ▸ hdec)

/-! ### Reset -/

/-- Settles O12: R22's table, row by row. -/
theorem resetValues : Obligations.ResetValues :=
  ⟨rfl, rfl, rfl, rfl, rfl, rfl, rfl, rfl, rfl⟩

end Sys2Proof.Machine
end

section
/-! PROOFS of the statements of 20_memory.md: the payload check, one response per command, and the capacity of the byte buffer for the
pushes and the encoders. -/

namespace Sys2Proof.Machine

/-! ### The payload and the response of a command -/

/-- Settles O8: the check of the payload length comes before the command's own rule (R122). -/
theorem wrongPayloadFaults : Obligations.WrongPayloadFaults := by
  intro i s hf hp
  rw [exec_eq, runCommand_wrongPayload hf hp]
  rfl

/-- A step that takes a command has a next state: the answer of a faulted block, a raised fault, or a command's own rule answered (R122). -/
theorem step_command_cases {s : State} {c : Command} {rest : List HostAction} (hin : s.input = .command c :: rest) :
    ∃ t, step s = .next t
      ∧ ((s.faultValid = true ∧ t = answerFaulted s)
        ∨ (s.faultValid = false ∧ ∃ e, t = raiseFault e s)
        ∨ ∃ i s' r, Ready i s ∧ bodyOf i s = .ok (s', r) ∧ t = answer s' r) := by
  rcases hdec : decode c.word with e | i
  · refine ⟨rejectWord s, by simp only [step, hin, hdec], ?_⟩
    by_cases hf : s.faultValid = true
    · exact .inl ⟨hf, if_pos hf⟩
    · exact .inr (.inl ⟨by simpa using hf, _, if_neg hf⟩)
  · refine ⟨_, by simp only [step, hin, hdec]; exact exec_eq i s, ?_⟩
    rcases exec_next_cases (exec_eq i s) with hf | he | ⟨hrdy, s', r, hbody, ht⟩
    · exact .inl hf
    · exact .inr (.inl he)
    · exact .inr (.inr ⟨i, s', r, hrdy, hbody, ht⟩)

/-- Settles O14, case by case over what a step that takes a command can do. -/
theorem oneResponsePerCommand : Obligations.OneResponsePerCommand := by
  intro s c rest hin
  have htail : s.input.tail = rest := by rw [hin]; rfl
  obtain ⟨t, hstep, ⟨hf, rfl⟩ | ⟨-, e, rfl⟩ | ⟨i, s', r, ⟨hf, -⟩, hbody, rfl⟩⟩ := step_command_cases hin
  · exact ⟨_, respStatus s.faultCode, hstep, htail, rfl, responseWf_respStatus _, (if_pos hf).symm⟩
  · exact ⟨_, respStatus (faultBits e), hstep, htail, rfl, responseWf_respStatus _, rfl⟩
  · obtain ⟨hform, hstatus⟩ := (bodyOf_effect hbody).response_ok
    have hframe := bodyOf_frame hbody
    have hinput : s'.input = s.input := by rw [hframe]
    have hresponses : s'.responses = s.responses := by rw [hframe]
    have hvalid : s'.faultValid = false := by rw [hframe]; exact hf
    refine ⟨_, r, hstep, ?_, ?_, hform, ?_⟩
    · rw [answer_input, hinput, htail]
    · rw [answer_responses, hresponses]
    · rw [answer_faultValid, hvalid, hstatus]; rfl

/-! ### The capacity and the pushes -/

/-- Bits whose completed bytes do not fit overflow the buffer (R42, R60). -/
theorem putBits_overflow {cap : Option Nat} {bits : List Bool} {w : BitWriter} (hwf : writerWf w = true)
    (hfull : hasSpace cap w.done.length ((w.cnt.toNat + bits.length) / 8) = false) : putBits cap bits w = .error .bwOverflow := by
  rw [putBits_wf cap bits w hwf, hfull]
  rfl

/-- A command past the common checks whose rule overflows the buffer faults with code 4 (R42, R120). -/
theorem exec_overflow {i : Instr} {s : State} (h : Ready i s) (hb : bodyOf i s = .error .bwOverflow) : exec i s = .next (faulted s 4) :=
  exec_error h hb

/-- Settles O25: both orders push a field of `nbits` bits, so both overflow. -/
theorem pushOverflowFaults : Obligations.PushOverflowFaults := by
  intro value nbits s hwf hf hp hfull
  constructor
  · have hput : push s.params.bwCap value.toNat nbits s.bw = .error .bwOverflow :=
      putBits_overflow hwf (by rwa [fieldBits_length])
    exact exec_overflow ⟨hf, hp⟩ (by rw [bodyOf, hput]; rfl)
  · have hput : pushRev s.params.bwCap value.toNat nbits s.bw = .error .bwOverflow :=
      putBits_overflow hwf (by rwa [fieldBitsRev_length])
    exact exec_overflow ⟨hf, hp⟩ (by rw [bodyOf, hput]; rfl)

/-! ### The capacity and the encoders -/

/-- Room on top of an empty buffer is the capacity itself (R42). -/
theorem hasSpace_zero (cap : Option Nat) (k : Nat) : hasSpace cap 0 k = capAtLeast cap k := by
  cases cap with
  | none => rfl
  | some c =>
    rw [Bool.eq_iff_iff]
    simp only [hasSpace, capAtLeast, Bool.or_eq_true, decide_eq_true_eq]
    omega

/-- A buffer with room for `k` bytes has room for fewer. -/
theorem capAtLeast_of_le {cap : Option Nat} {j k : Nat} (hle : j ≤ k) (h : capAtLeast cap k = true) : capAtLeast cap j = true := by
  cases cap with
  | none => rfl
  | some c =>
    simp only [capAtLeast, decide_eq_true_eq] at h ⊢
    omega

/-- `FixedEncode` in the terms of the format: the bytes of the fixed block, or BwOverflow when they exceed the capacity (R42, R72). -/
theorem fixedEncode_eq_fixedBlock (cap : Option Nat) (data : List Byte) (w : BitWriter) :
    fixedEncode cap data w
      = if capAtLeast cap ((fixedBlockStream data).length / 8) then .ok (packBytes (fixedBlockStream data), BitWriter.empty)
        else .error .bwOverflow := by
  rw [fixedEncode_eq, hasSpace_zero, fixedBlockStream_eq]

theorem fixedEncode_overflow {cap : Option Nat} {data : List Byte} (w : BitWriter)
    (h : capAtLeast cap ((fixedBlockStream data).length / 8) = false) : fixedEncode cap data w = .error .bwOverflow := by
  rw [fixedEncode_eq_fixedBlock, h]
  rfl

/-- Settles O35, by what `FixedEncode` gives in the terms of the format. -/
theorem feEncodeOverflowFaults : Obligations.FeEncodeOverflowFaults := by
  intro len s hrdy hcap
  exact exec_overflow hrdy (by rw [bodyOf, fixedEncode_overflow s.bw hcap]; rfl)

/-- FE_ENCODE with room for the block: PLAIN with its bytes, the writer cleared, no other register written (R72). -/
theorem exec_feEncode_ok {len : Nat} {s : State} (hrdy : Ready (.feEncode len) s)
    (hcap : capAtLeast s.params.bwCap ((fixedBlockStream (payload s)).length / 8) = true) :
    exec (.feEncode len) s
      = .next { answered s ⟨0, .plain, 0, packBytes (fixedBlockStream (payload s)), []⟩ with bw := ⟨[], 0, 0⟩ } := by
  have hbody : bodyOf (.feEncode len) s
      = .ok (setBw s BitWriter.empty, respPlain (packBytes (fixedBlockStream (payload s)))) := by
    rw [bodyOf, fixedEncode_eq_fixedBlock, if_pos hcap]
    rfl
  exact exec_ok hrdy hbody

/-! ### The length of a fixed block (R42, R73) -/

/-- A literal takes 8 bits up to 143 and 9 bits above (R54). -/
theorem literalBits_length (x : Byte) : (literalBits x).length = if x.toNat ≤ 143 then 8 else 9 := by
  rw [literalBits, fieldBitsRev_length, fixedLiteralCode]
  split <;> rfl

theorem literals_length_le (data : List Byte) : (data.flatMap literalBits).length ≤ 9 * data.length := by
  induction data with
  | nil => exact Nat.le_refl 0
  | cons x xs ih =>
    have hx : (literalBits x).length ≤ 9 := by rw [literalBits_length]; split <;> decide
    simp only [List.flatMap_cons, List.length_append, List.length_cons]
    omega

theorem literals_length_zeros (n : Nat) : ((zeros n).flatMap literalBits).length = 8 * n := by
  have h0 : (literalBits (0 : Byte)).length = 8 := literalBits_length 0
  rw [zeros, List.flatMap_replicate, List.length_flatten, List.map_replicate, h0, List.sum_replicate_nat, Nat.mul_comm]

/-- "T = 10 + 8a + 9b bits are pushed before the pad" (R73): 10 and the literals. -/
theorem fixedCore_length (data : List Byte) : (fixedCore data).length = 10 + (data.flatMap literalBits).length := by
  simp only [fixedCore, List.length_append, List.length_replicate, List.length_cons, List.length_nil]
  omega

/-- The bytes a stream of `k` bits and its stored pad fill (R71, R73). -/
theorem alignBits_bytes (k : Nat) : (k + (alignBits k).length) / 8 = if k % 8 = 0 then k / 8 else (k + 3 + 7) / 8 + 4 := by
  rw [alignBits]
  split
  · rfl
  · simp only [List.length_append, List.length_replicate, padCount]
    omega

/-- The length of a fixed block in bytes (R73). -/
theorem fixedBlockStream_bytes (data : List Byte) :
    (fixedBlockStream data).length / 8
      = if (fixedCore data).length % 8 = 0 then (fixedCore data).length / 8 else ((fixedCore data).length + 3 + 7) / 8 + 4 := by
  rw [fixedBlockStream_eq, fixedStream, List.length_append, alignBits_bytes]

/-- "ceil((9*len + 13) / 8) + 4" bytes are enough for any payload (R42). -/
theorem fixedBlockStream_bytes_le (data : List Byte) : (fixedBlockStream data).length / 8 ≤ (9 * data.length + 13 + 7) / 8 + 4 := by
  have hlits := literals_length_le data
  rw [fixedBlockStream_bytes, fixedCore_length]
  split <;> omega

/-- The block of `n` zero bytes takes `n + 6` bytes (R73, R86). -/
theorem fixedBlockStream_bytes_zeros (n : Nat) : (fixedBlockStream (zeros n)).length / 8 = n + 6 := by
  rw [fixedBlockStream_bytes, fixedCore_length, literals_length_zeros]
  split <;> omega

theorem packBytes_length (bits : List Bool) : (packBytes bits).length = bits.length / 8 := by simp [packBytes]

/-- Settles O37: the bound of R42 is at least the length of the block, whatever the payload. -/
theorem fixedBlockFits : Obligations.FixedBlockFits := by
  intro len s hrdy hcap
  have hlen : (payload s).length = len := hrdy.2
  have hle := fixedBlockStream_bytes_le (payload s)
  rw [hlen] at hle
  exact ⟨_, exec_feEncode_ok hrdy (capAtLeast_of_le hle hcap), by rwa [packBytes_length]⟩

/-! ### The capacity and ZR_ENCODE -/

/-- The small path overflows when the `n + 6` bytes of its block do not fit (R42, R86). -/
theorem zeroRunEncode_small_overflow {cap : Option Nat} {n : Nat} (w : BitWriter) (hn : n ≤ 1032)
    (h : capAtLeast cap (n + 6) = false) : zeroRunEncode cap n w = .error .bwOverflow := by
  have hfixed : fixedEncode cap (zeros n) w = .error .bwOverflow :=
    fixedEncode_overflow w (by rwa [fixedBlockStream_bytes_zeros])
  rw [zeroRunEncode, if_pos (show n ≤ zrThreshold from hn), hfixed]
  rfl

/-- The large path overflows when its preamble does not fit (R42, R88). -/
theorem zeroRunEncode_large_overflow {cap : Option Nat} {n : Nat} (w : BitWriter) (hn : 1032 < n)
    (h : capAtLeast cap ((preambleStream (excessSymbol n).code).length / 8) = false) :
    zeroRunEncode cap n w = .error .bwOverflow := by
  have hpre : hasSpace cap 0 ((preBits (excessOf n).xc).length / 8) = false := by
    rwa [hasSpace_zero, (excessOf_code n).1, ← preambleStream_eq]
  rw [zeroRunEncode, if_neg (show ¬ n ≤ zrThreshold from Nat.not_le_of_lt hn), zeroRunLarge_eq cap n w hn, if_neg]
  rintro ⟨hfits, -⟩
  exact absurd (hfits.symm.trans hpre) (by decide)

/-- Settles O42, path by path. -/
theorem zrEncodeOverflowFaults : Obligations.ZrEncodeOverflowFaults := by
  intro n s hrdy
  constructor
  · intro hn hcap
    exact exec_overflow hrdy (by rw [bodyOf, zeroRunEncode_small_overflow s.bw hn hcap]; rfl)
  · intro hn hcap
    exact exec_overflow hrdy (by rw [bodyOf, zeroRunEncode_large_overflow s.bw hn hcap]; rfl)

end Sys2Proof.Machine
end

section
/-! PROOFS of the statements of 30_encoding.md: the words the decoder accepts, the codes of the zero-run tables, and the pseudo-commands of
R52 as runs of the block. -/

namespace Sys2Proof.Machine

/-! ### The decoder and the legal words (R45 to R48) -/

/-- A command whose operand is the whole `arg` is read exactly when `nbits` is 0 (R46). -/
theorem decodeArgOnly_accepts_iff (w : CmdWord) (i : Instr) : (∃ j, decodeArgOnly w i = .ok j) ↔ wordNbits w = 0 := by
  simp [decodeArgOnly, ite_eq_iff]

/-- A command without operand is read exactly when `nbits` and `arg` are 0 (R46). -/
theorem decodeNoOperand_accepts_iff (w : CmdWord) (i : Instr) :
    (∃ j, decodeNoOperand w i = .ok j) ↔ wordNbits w = 0 ∧ wordArg w = 0 := by
  simp [decodeNoOperand, ite_eq_iff]

/-- AD_LOAD is read exactly when `nbits` and the upper half of `arg` are 0 (R46, R102). -/
theorem decodeAdLoad_accepts_iff (w : CmdWord) :
    (∃ j, decodeAdLoad w = .ok j) ↔ wordNbits w = 0 ∧ (wordArg w).extractLsb' 32 32 = 0 := by
  simp [decodeAdLoad, ite_eq_iff]

/-- R48 as a proposition. -/
theorem legalWord_iff (w : CmdWord) :
    legalWord w = true ↔ (wordOp w).toNat ≤ 0xA ∧ wordRsv w = 0 ∧ ((wordOp w).toNat ≤ 0x1 ∨ wordNbits w = 0)
      ∧ ((wordOp w).toNat ∈ [0x2, 0x3, 0x4, 0xA] → wordArg w = 0)
      ∧ ((wordOp w).toNat = 0x7 → (wordArg w).extractLsb' 32 32 = 0) := by
  simp [legalWord, Decidable.imp_iff_not_or, and_assoc]

/-- Opcode by opcode, the fields that must be 0 for the decoder are those R48 names. -/
theorem decodeOp_accepts_iff {w : CmdWord} (hrsv : wordRsv w = 0) : (∃ i, decodeOp w = .ok i) ↔ legalWord w = true := by
  rw [legalWord_iff, decodeOp]
  split
  case h_1 hop | h_2 hop => simp [hop, hrsv]
  case h_3 hop | h_4 hop | h_5 hop | h_11 hop => simp [decodeNoOperand_accepts_iff, hop, hrsv]
  case h_6 hop | h_7 hop | h_9 hop | h_10 hop => simp [decodeArgOnly_accepts_iff, hop, hrsv]
  case h_8 hop => simp [decodeAdLoad_accepts_iff, hop, hrsv]
  case h_12 =>
    have hbig : ¬ (wordOp w).toNat ≤ 0xA := by grind
    simp [hbig]

/-- Settles O3: a word whose `rsv` is not 0 is neither read nor legal; the others go opcode by opcode. -/
theorem decoderAcceptsLegalWords : Obligations.DecoderAcceptsLegalWords := by
  intro w
  rw [decode]
  by_cases hrsv : wordRsv w = 0
  · rw [if_neg (not_not.mpr hrsv), decodeOp_accepts_iff hrsv]
  · rw [if_pos hrsv, legalWord_iff]
    exact ⟨fun ⟨i, hi⟩ => (nomatch hi), fun ⟨_, h0, _⟩ => absurd h0 hrsv⟩

/-! ### The codes of the zero-run block (R58, R83, R85) -/

/-- The length each symbol has in the literal/length table (R85). -/
theorem codeLengthIn_llTable (xc sym : Nat) :
    codeLengthIn (llTable xc) sym
      = if sym = 285 then 1 else if sym = 0 then 2 else if sym = 256 then 3 else if sym = xc then 3 else 0 := by
  simp only [codeLengthIn, llTable, List.find?_cons, List.find?_nil]
  grind

/-- The lengths of the literal/length table, symbol by symbol, are the lengths the trees send (R85, R89). -/
theorem llTable_lengths (xc : Nat) (h1 : 257 ≤ xc) (h2 : xc ≤ 284) :
    (List.range 286).map (codeLengthIn (llTable xc)) = zrLitLengths xc := by
  apply List.ext_getElem
  · rw [zrLitLengths_length xc h1 h2, List.length_map, List.length_range]
  · intro sym hsym _
    have hlt : sym < 286 := by simpa using hsym
    simp only [List.getElem_map, List.getElem_range, codeLengthIn_llTable, zrLitLengths, List.getElem_append, List.getElem_replicate,
      List.length_replicate, List.length_singleton, List.getElem_singleton]
    grind

/-- Settles O46: the lengths are those the encoder sends, and the decoder's facts about their canonical codes apply. -/
theorem zeroRunCodesCanonical : Obligations.ZeroRunCodesCanonical := by
  obtain ⟨hclComplete, hclCode⟩ := clCanonical_eq
  obtain ⟨hdistOk, hdistCode⟩ := zrDistance
  refine ⟨by decide, hclComplete, ?_, fun xc h1 h2 => ?_, rfl, by decide, hdistCode, hdistOk⟩
  · rw [hclCode]
    decide
  · rw [llTable_lengths xc h1 h2, canonicalCode_zrLitLengths xc h1 h2]
    have hlast := List.perm_append_singleton (⟨285, 1, 0b0⟩ : CodeRow) [⟨0, 2, 0b10⟩, ⟨256, 3, 0b110⟩, ⟨xc, 3, 0b111⟩]
    exact ⟨completeCode_zrLitLengths xc, hlast, rfl⟩

/-! ### Running the host's commands (R45 to R47, R122) -/

/-- A 32-bit value is the low half of its zero extension (R49, R102). -/
@[simp] theorem extractLow_setWidth (c : Word32) : (c.setWidth 64).extractLsb' 0 32 = c := by
  ext i hi
  have h64 : i < 64 := by omega
  simp [h64, BitVec.getLsbD_eq_getElem hi]

/-- The high half of a zero extension is 0 (R46, R102). -/
@[simp] theorem extractHigh_setWidth (c : Word32) : (c.setWidth 64).extractLsb' 32 32 = 0 := by
  ext i hi
  simp

/-- The word of a well-formed command is read back (R45 to R47). -/
theorem decode_encode {i : Instr} (h : i.WellFormed) : decode (encode i) = .ok i := by
  cases i with
  | bwPush value nbits | bwPushRev value nbits =>
    have hn : nbits < 64 := of_decide_eq_true h
    simp [decode, decodeOp, encode, Nat.mod_eq_of_lt hn]
  | bwAligned | bwClear | bwExtract | adRead => rfl
  | feEncode n | zrEncode n | adCombine n | adZeroRun n =>
    have hn : (BitVec.ofNat 64 n).toNat = n := Nat.mod_eq_of_lt (of_decide_eq_true h)
    simp [-BitVec.toNat_ofNat, decode, decodeOp, decodeArgOnly, encode, hn]
  | adLoad c => simp [decode, decodeOp, decodeAdLoad, encode]

/-- The block reads a command the host has encoded. -/
theorem step_commandOf {i : Instr} {data : List Byte} {s : State} {later : List HostAction} (hwf : i.WellFormed)
    (hin : s.input = .command (commandOf i data) :: later) : step s = exec i s := by
  simp only [step, hin, commandOf, decode_encode hwf]

/-- A run from a step that answers. -/
theorem run_succ_of_step {s t : State} (k : Nat) (h : step s = .next t) :
    Host.Core.run core (k + 1) s = Host.Core.run core k t := by
  have hcore : core.step s = .next t := h
  simp only [Host.Core.run, hcore]

/-- A run that begins with an encoded command whose rule answers. -/
theorem run_command {i : Instr} {data : List Byte} {s s' : State} {r : Response} {later : List HostAction} (k : Nat)
    (hin : s.input = .command (commandOf i data) :: later) (hwf : i.WellFormed) (hf : s.faultValid = false)
    (hlen : data.length = announcedLength i) (hb : bodyOf i s = .ok (s', r)) :
    Host.Core.run core (k + 1) s = Host.Core.run core k (answer s' r) := by
  have hready : Ready i s := ⟨hf, by simpa [payload, hin, commandOf] using hlen⟩
  exact run_succ_of_step k ((step_commandOf hwf hin).trans (exec_ok hready hb))

/-! ### ALIGN_STORED (R52, R71) -/

/-- With no capacity the bits of a push always fit (R5, R60). -/
theorem putBits_unbounded (bits : List Bool) (w : BitWriter) : ∃ w', putBits none bits w = .ok w' := by
  induction bits generalizing w with
  | nil => exact ⟨w, rfl⟩
  | cons b bs ih =>
    obtain ⟨w', hput⟩ : ∃ w', putBit none b w = .ok w' := by
      by_cases h : w.cnt = 7
      · exact ⟨_, by rw [putBit, if_pos h, hasRoom, if_pos rfl]⟩
      · exact ⟨_, by rw [putBit, if_neg h]⟩
    obtain ⟨w'', hrest⟩ := ih w'
    exact ⟨w'', by simp only [putBits, hput, hrest]⟩

/-- The commands that push these fields, each a value with its number of bits. -/
def pushCommands (fields : List (Word64 × Nat)) : List Command := fields.map fun f => pushCommand f.1 f.2

/-- The bits that these fields stand for, in stream order (R61). -/
def pushedBits (fields : List (Word64 × Nat)) : List Bool := fields.flatMap fun f => fieldBits f.1.toNat f.2

/-- The host's pushes into an unbounded buffer append the bits of their fields without a fault. -/
theorem run_pushCommands (fields : List (Word64 × Nat)) (s : State) (later : List HostAction)
    (hn : ∀ f ∈ fields, f.2 < 64) (hf : s.faultValid = false) (hcap : s.params.bwCap = none)
    (hin : s.input = hostActions (pushCommands fields) ++ later) :
    ∃ t, Host.Core.run core (pushCommands fields).length s = .next t ∧ t.faultValid = false ∧ t.input = later
      ∧ putBits none (pushedBits fields) s.bw = .ok t.bw := by
  induction fields generalizing s with
  | nil => exact ⟨s, rfl, hf, hin, rfl⟩
  | cons f fs ih =>
    obtain ⟨w, hw⟩ := putBits_unbounded (fieldBits f.1.toNat f.2) s.bw
    have hbody : bodyOf (.bwPush f.1 f.2) s = .ok (setBw s w, respNone) := by
      simp only [bodyOf, push, hcap, hw]
      rfl
    have hwf : (Instr.bwPush f.1 f.2).WellFormed := decide_eq_true (hn f List.mem_cons_self)
    have hnext : (answer (setBw s w) respNone).input = hostActions (pushCommands fs) ++ later := by
      rw [answer_input, setBw_input, hin]
      rfl
    obtain ⟨t, hrun, hvalid, hlater, hbits⟩ :=
      ih (answer (setBw s w) respNone) (fun g hg => hn g (List.mem_cons_of_mem f hg)) hf hcap hnext
    refine ⟨t, (run_command _ hin hwf hf rfl hbody).trans hrun, hvalid, hlater, ?_⟩
    rw [pushedBits, List.flatMap_cons, putBits_append, hw]
    exact hbits

/-- The fields ALIGN_STORED pushes with `cnt` bits pending (R52). -/
def alignFields (cnt : Nat) : List (Word64 × Nat) :=
  if cnt = 0 then [] else [(0, 1), (0, 2)] ++ List.replicate (padCount (cnt + 3)) (0, 1) ++ [(0x0000, 16), (0xFFFF, 16)]

theorem alignStoredCommands_eq (cnt : Nat) : alignStoredCommands cnt = pushCommands (alignFields cnt) := by
  rw [alignStoredCommands, alignFields]
  split
  · rfl
  · simp [pushCommands, padCount]

theorem alignFields_nbits : ∀ cnt < 8, ∀ f ∈ alignFields cnt, f.2 < 64 := by decide

/-- The fields of ALIGN_STORED are the bits of the aligning block (R55, R71). -/
theorem pushedBits_alignFields : ∀ cnt < 8, pushedBits (alignFields cnt) = alignBits cnt := by decide

/-- `AlignStored()` on a sound writer pushes the bits its `cnt` asks for (R71). -/
theorem alignStored_eq_putBits (cap : Option Nat) {w : BitWriter} (hwf : writerWf w = true) :
    alignStored cap w = putBits cap (alignBits w.cnt.toNat) w := by
  have hbits : alignBits (streamOf w).length = alignBits w.cnt.toNat := by
    rw [streamOf_length]
    simp [alignBits, padCount, Nat.add_assoc]
  have h := emits_alignStored cap (streamOf w)
  rwa [packed_streamOf w hwf, hbits] at h

/-- Settles O56: the commands push the bits that `AlignStored()` pushes. -/
theorem alignStoredMacro : Obligations.AlignStoredMacro := by
  intro s later hf hwf hcap hin
  have hcnt : s.bw.cnt.toNat < 8 := s.bw.cnt.isLt
  rw [alignStoredCommands_eq] at hin ⊢
  rw [alignStored_eq_putBits none hwf, ← pushedBits_alignFields _ hcnt]
  exact run_pushCommands _ s later (alignFields_nbits _ hcnt) hf hcap hin

/-! ### The values of combine and combine_zero_run (R52, R100, R101) -/

/-- The host takes the checksum that the last answer carries (R49, R52). -/
theorem takeScalar_append_zextAdler (rs : List Response) (c : Word32) : takeScalar (rs ++ [respScalar (zextAdler c)]) = some c := by
  simp [takeScalar, scalarOf, respScalar, zextAdler]

/-- The block with these commands to come and nothing after them. -/
def offering (commands : List Command) (s : State) : State := { s with input := hostActions commands }

/-- What the host takes from a run that ends (R52). -/
theorem issueAndTake_of_run {commands : List Command} {s t : State}
    (h : Host.Core.run core commands.length (offering commands s) = .next t) : issueAndTake commands s = takeScalar t.responses := by
  have hrun : Host.Core.run core commands.length { s with input := hostActions commands } = .next t := h
  simp only [issueAndTake, hrun]

/-- The block after AD_LOAD of `c`, with these commands still to come (R102). -/
def loaded (c : Word32) (later : List Command) (s : State) : State :=
  { s with adler := c, input := hostActions later, responses := s.responses ++ [respScalar (zextAdler c)] }

theorem run_adLoad (k : Nat) (c : Word32) (later : List Command) {s : State} (hf : s.faultValid = false) :
    Host.Core.run core (k + 1) (offering (commandOf (.adLoad c) [] :: later) s) = Host.Core.run core k (loaded c later s) :=
  run_command (s := offering (commandOf (.adLoad c) [] :: later) s) k rfl rfl hf rfl rfl

/-- AD_LOAD and then a command whose rule answers a checksum: the host takes that checksum. -/
theorem issueAndTake_after_load {i : Instr} {data : List Byte} {s s' : State} {c x : Word32} (hf : s.faultValid = false)
    (hwf : i.WellFormed) (hlen : data.length = announcedLength i)
    (hb : bodyOf i (loaded c [commandOf i data] s) = .ok (s', respScalar (zextAdler x))) :
    issueAndTake [commandOf (.adLoad c) [], commandOf i data] s = some x := by
  have hsecond : Host.Core.run core 1 (loaded c [commandOf i data] s) = .next (answer s' (respScalar (zextAdler x))) :=
    run_command 0 rfl hwf hf hlen hb
  have hrun := (run_adLoad 1 c [commandOf i data] hf).trans hsecond
  rw [issueAndTake_of_run (commands := [_, _]) hrun, answer_responses, takeScalar_append_zextAdler]

/-- Settles O59: the loaded checksum is what the second command starts from. -/
theorem combineValues : Obligations.CombineValues := by
  intro c s hf
  constructor
  · intro data hdata
    exact issueAndTake_after_load (i := .adCombine data.length) hf (decide_eq_true hdata) rfl rfl
  · intro n hn
    exact issueAndTake_after_load (i := .adZeroRun n) hf (decide_eq_true hn) rfl rfl

end Sys2Proof.Machine
end

section
/-! PROOFS of the statements of 40_bit_writer.md: the writer's primitives as appends to its stream, the laws of pushing, and the five
commands of the writer. -/

namespace Sys2Proof.Machine

/-! ### Fields of bits -/

/-- Only `value mod 2^nbits` is pushed (R46, R61). -/
theorem fieldBits_mod (value nbits : Nat) : fieldBits (value % 2 ^ nbits) nbits = fieldBits value nbits := by
  simp only [fieldBits, truncated, Nat.mod_mod]

theorem fieldBitsRev_mod (value nbits : Nat) : fieldBitsRev (value % 2 ^ nbits) nbits = fieldBitsRev value nbits := by
  rw [fieldBitsRev_eq_reverse, fieldBitsRev_eq_reverse, fieldBits_mod]

theorem push_mod (cap : Option Nat) (value nbits : Nat) : push cap (value % 2 ^ nbits) nbits = push cap value nbits := by
  funext w
  rw [push, fieldBits_mod, push]

theorem pushRev_mod (cap : Option Nat) (value nbits : Nat) : pushRev cap (value % 2 ^ nbits) nbits = pushRev cap value nbits := by
  funext w
  rw [pushRev, fieldBitsRev_mod, pushRev]

/-- A field of `a + b` bits is its low `a` bits and then its next `b` bits. -/
theorem fieldBits_add (value a b : Nat) : fieldBits value (a + b) = fieldBits value a ++ fieldBits (value / 2 ^ a) b := by
  simp only [fieldBits_eq, List.range_add, List.map_append, List.map_map]
  congr 1
  refine List.map_congr_left fun i _ => ?_
  simp only [Function.comp_apply, Nat.testBit_div_two_pow, Nat.add_comm]

/-- Reversed, the high part comes first. -/
theorem fieldBitsRev_add (value a b : Nat) : fieldBitsRev value (a + b) = fieldBitsRev (value / 2 ^ b) a ++ fieldBitsRev value b := by
  simp only [fieldBitsRev_eq_reverse, Nat.add_comm a b, fieldBits_add, List.reverse_append]

/-- The part of a field above its low `a` bits, taken before or after truncation. -/
theorem mod_add_div_two_pow (value a b : Nat) : value % 2 ^ (a + b) / 2 ^ a = value / 2 ^ a % 2 ^ b := by
  rw [Nat.pow_add, Nat.mod_mul_right_div_self]

/-- A bit list is the field of the number it spells. -/
theorem fieldBits_bitsToNat (xs : List Bool) : fieldBits (bitsToNat xs) xs.length = xs := by
  rw [fieldBits_eq]
  refine List.ext_getElem (by simp) fun i _ hi => ?_
  simp only [List.getElem_map, List.getElem_range, testBit_bitsToNat, List.getD_eq_getElem _ _ hi]

/-- A field spells its value truncated (R61). -/
theorem bitsToNat_fieldBits (value nbits : Nat) : bitsToNat (fieldBits value nbits) = value % 2 ^ nbits := by
  refine Nat.eq_of_testBit_eq fun i => ?_
  rw [testBit_bitsToNat, Nat.testBit_mod_two_pow, fieldBits_eq]
  by_cases hi : i < nbits
  · simp [hi]
  · simp [hi]

/-- `rev_nbits` of a truncated value spells its reversed field (R6, R62). -/
theorem revBits_mod (value nbits : Nat) : revBits nbits (value % 2 ^ nbits) = bitsToNat (fieldBitsRev value nbits) := by
  rw [← fieldBitsRev_mod, ← msbFirst_eq]
  rfl

/-- Settles O24: the field of the reversed value is the reversed field. -/
theorem pushRevIsPushOfReversed : Obligations.PushRevIsPushOfReversed := by
  intro cap value nbits w
  have hfield : fieldBits (bitsToNat (fieldBitsRev value nbits)) nbits = fieldBitsRev value nbits := by
    simpa only [fieldBitsRev_length] using fieldBits_bitsToNat (fieldBitsRev value nbits)
  rw [push, revBits_mod, hfield, pushRev]

/-! ### Pushing as appending to the stream -/

/-- Bits that fit are appended to the stream (R60, R61). -/
theorem putBits_append_stream {cap : Option Nat} {bits : List Bool} {w : BitWriter} (hwf : writerWf w = true)
    (hroom : hasSpace cap w.done.length ((w.cnt.toNat + bits.length) / 8) = true) :
    putBits cap bits w = .ok (packed (streamOf w ++ bits)) := by
  rw [putBits_wf cap bits w hwf, if_pos hroom]

theorem putBits_singleton (cap : Option Nat) (b : Bool) (w : BitWriter) : putBits cap [b] w = putBit cap b w := by
  simp only [putBits]
  split <;> exact Eq.symm ‹_›

/-- There is always room for no byte (R42). -/
theorem hasSpace_no_bytes (cap : Option Nat) (k : Nat) : hasSpace cap k 0 = true := by
  cases cap <;> simp [hasSpace]

/-- Settles O21: one bit completes a byte exactly when seven are pending. -/
theorem putBitAppends : Obligations.PutBitAppends := by
  intro cap b w hwf
  rw [← putBits_singleton]
  by_cases hfull : w.cnt = 7 ∧ hasSpace cap w.done.length 1 = false
  · rw [if_pos hfull]
    exact putBits_overflow hwf (by simpa [hfull.1] using hfull.2)
  · rw [if_neg hfull]
    have hroom : hasSpace cap w.done.length ((w.cnt.toNat + [b].length) / 8) = true := by
      by_cases h7 : w.cnt = 7
      · rw [h7]
        simpa [h7] using hfull
      · have hlt : w.cnt.toNat + 1 < 8 := by bv_omega
        rw [List.length_singleton, Nat.div_eq_of_lt hlt]
        exact hasSpace_no_bytes cap _
    exact ⟨_, putBits_append_stream hwf hroom, streamOf_packed _, writerWf_packed _⟩

/-- With an unbounded buffer every bit is appended. -/
theorem putBits_none_eq (bits : List Bool) {w : BitWriter} (hwf : writerWf w = true) :
    putBits none bits w = .ok (packed (streamOf w ++ bits)) := putBits_append_stream hwf rfl

/-- Settles O29: the field splits, and pushing in two lots is pushing in one. -/
theorem pushSplits : Obligations.PushSplits := by
  intro v a b w hwf
  refine ⟨⟨_, putBits_none_eq (fieldBits v a) hwf, ?_⟩, ?_, ?_⟩
  · rw [← streamOf_length, streamOf_packed, List.length_append, streamOf_length, fieldBits_length]
  · rw [mod_add_div_two_pow, push_mod, push_mod, push, fieldBits_add, putBits_append]
    rfl
  · have hhigh : v % 2 ^ (a + b) / 2 ^ b = v / 2 ^ b % 2 ^ a := by rw [Nat.add_comm a b, mod_add_div_two_pow]
    rw [hhigh, pushRev_mod, pushRev_mod, pushRev, fieldBitsRev_add, putBits_append]
    rfl

/-! ### Whole bytes -/

/-- Whole bytes pushed from an aligned state are appended as they are (R66). -/
theorem putBits_bitsOf_aligned (bs done : List Byte) : putBits none (bitsOf bs) ⟨done, 0, 0⟩ = .ok ⟨done ++ bs, 0, 0⟩ := by
  have hstream : streamOf ⟨done, 0, 0⟩ ++ bitsOf bs = streamOf ⟨done ++ bs, 0, 0⟩ := by simp [streamOf, partialBits]
  rw [putBits_none_eq _ rfl, hstream, packed_streamOf _ rfl]

/-- Eight bits are the bits of a byte (R7, R61). -/
theorem fieldBits_eight (v : Nat) : fieldBits v 8 = bitsOf [BitVec.ofNat 8 v] := by
  rw [fieldBits_eq, bitsOf_cons, bitsOf_nil, List.append_nil, byteBits]
  refine List.map_congr_left fun i hi => ?_
  simp [BitVec.getLsbD_ofNat, List.mem_range.mp hi, -BitVec.getLsbD_eq_getElem]

/-- Settles O30: each push is the bits of one or two whole bytes. -/
theorem alignedPushAppendsBytes : Obligations.AlignedPushAppendsBytes := by
  intro v done
  have hsixteen : fieldBits v 16 = bitsOf [BitVec.ofNat 8 v, BitVec.ofNat 8 (v / 256)] := by
    rw [fieldBits_add v 8 8, fieldBits_eight, fieldBits_eight, ← bitsOf_append]
    rfl
  refine ⟨?_, ?_, ?_⟩
  · rw [push, fieldBits_eight, putBits_bitsOf_aligned]
  · rw [push, hsixteen, putBits_bitsOf_aligned]
  · rw [pushRevIsPushOfReversed, push, fieldBits_eight, putBits_bitsOf_aligned]
    rfl

/-- Bit `i` of byte `k` of a packing is stream bit `8k + i` (R31). -/
theorem getLsbD_byteAt (bits : List Bool) (k : Nat) {i : Nat} (hi : i < 8) :
    (byteAt bits k).getLsbD i = bits.getD (8 * k + i) false := by
  rw [byteAt, BitVec.getLsbD_ofNat, testBit_bitsToNat]
  simp [hi]

/-- Settles O31: the bits pushed from a cleared writer are packed, and packing places bit `j` by R31. -/
theorem pushesPackTheStream : Obligations.PushesPackTheStream := by
  intro xs
  refine ⟨fun ys zs hxs => by rw [hxs, putBits_append], fun k hk => ⟨packBytes xs, ?_, ?_, fun j hj => ?_⟩⟩
  · have hpush : putBits none xs BitWriter.empty = .ok (packed xs) := putBits_packed none xs []
    rw [hpush, Except.bind, extract_packed, if_pos (by omega)]
  · rw [packBytes_length]
    omega
  · have hbyte : (packBytes xs).getD (j / 8) 0 = byteAt xs (j / 8) := by
      rw [List.getD_eq_getElem _ _ (by rw [packBytes_length]; omega)]
      simp [packBytes]
    rw [hbyte, getLsbD_byteAt xs (j / 8) (by omega), Nat.div_add_mod]

/-! ### The byte-wise form (R67) -/

/-- Byte `k` of a packing is cut out of the number its bits spell. -/
theorem byteAt_eq_shiftRight (bits : List Bool) (k : Nat) : byteAt bits k = BitVec.ofNat 8 (bitsToNat bits >>> (8 * k)) := by
  refine BitVec.eq_of_getLsbD_eq fun i hi => ?_
  rw [getLsbD_byteAt bits k hi, BitVec.getLsbD_ofNat, Nat.testBit_shiftRight, testBit_bitsToNat]
  simp [hi]

/-- Byte `k` of a stream after whole bytes. -/
theorem byteAt_bitsOf_append_add (bs : List Byte) (rest : List Bool) (k : Nat) :
    byteAt (bitsOf bs ++ rest) (bs.length + k) = byteAt rest k := by
  rw [byteAt, Nat.mul_add, ← bitsOf_length, List.drop_length_add_append, byteAt]

/-- Whole bytes before a stream go before the bytes of its packing. -/
theorem packed_bitsOf_append (bs : List Byte) (rest : List Bool) :
    packed (bitsOf bs ++ rest) = { packed rest with done := bs ++ packBytes rest } := by
  have hlen : (bitsOf bs ++ rest).length = 8 * bs.length + rest.length := by rw [List.length_append, bitsOf_length]
  rw [packed, packBytes_bitsOf_append, hlen, Nat.mul_add_div (by decide), byteAt_bitsOf_append_add, Nat.mul_add_mod]
  rfl

/-- The pending bits of a sound writer spell `bw.cur` (R11). -/
theorem bitsToNat_partialBits {w : BitWriter} (hwf : writerWf w = true) : bitsToNat (partialBits w) = w.cur.toNat := by
  have hfield : partialBits w = fieldBits w.cur.toNat w.cnt.toNat := (fieldBits_eq _ _).symm
  rw [hfield, bitsToNat_fieldBits, Nat.mod_eq_of_lt (of_decide_eq_true hwf)]

/-- `acc` of R67 is the number that the pending bits and the field spell. -/
theorem bitsToNat_partialBits_append (value nbits : Nat) {w : BitWriter} (hwf : writerWf w = true) :
    bitsToNat (partialBits w ++ fieldBits value nbits) = w.cur.toNat ||| (truncated value nbits <<< w.cnt.toNat) := by
  have hcur : w.cur.toNat < 2 ^ w.cnt.toNat := of_decide_eq_true hwf
  rw [bitsToNat_append, bitsToNat_partialBits hwf, bitsToNat_fieldBits, partialBits_length, Nat.lor_comm,
    ← Nat.shiftLeft_add_eq_or_of_lt hcur, Nat.shiftLeft_eq, truncated]
  ring

/-- Settles O32: both forms cut the same bytes out of the pending bits and the field. -/
theorem bytewisePushAgrees : Obligations.BytewisePushAgrees := by
  intro value nbits w hwf
  rw [push, putBits_none_eq _ hwf, streamOf, List.append_assoc, packed_bitsOf_append]
  simp [packed, packBytes, pushBytewise, byteAt_eq_shiftRight, bitsToNat_partialBits_append value nbits hwf]

/-! ### The commands of the writer -/

/-- A command whose rule pushes bits that fit: they are appended, the answer is NONE, and no other register is written (R61, R62). -/
theorem exec_putBits {i : Instr} {bits : List Bool} {nbits : Nat} {s : State} (hready : Ready i s) (hwf : writerWf s.bw = true)
    (hlen : bits.length = nbits)
    (hbody : bodyOf i s = (putBits s.params.bwCap bits s.bw).bind fun w => .ok (setBw s w, respNone))
    (hroom : hasSpace s.params.bwCap s.bw.done.length ((s.bw.cnt.toNat + nbits) / 8) = true) :
    ∃ w, exec i s = .next { answered s ⟨0, .none, 0, [], []⟩ with bw := w } ∧ streamOf w = streamOf s.bw ++ bits
      ∧ writerWf w = true ∧ aligned w = decide ((s.bw.cnt.toNat + nbits) % 8 = 0) := by
  subst hlen
  rw [putBits_append_stream hwf hroom] at hbody
  refine ⟨_, exec_ok hready hbody, streamOf_packed _, writerWf_packed _, ?_⟩
  rw [setBw_bw, aligned_packed, List.length_append, streamOf_length, Nat.add_assoc, Nat.mul_add_mod]

/-- A push that does not fit faults with BwOverflow and answers its code (R42, R123). -/
theorem faulted_answers_overflow {i : Instr} {s : State} (h : exec i s = .next (faulted s 4)) :
    ∃ t, exec i s = .next t ∧ t.faultValid = true ∧ t.faultCode = 4 ∧ t.responses = s.responses ++ [⟨4, .none, 0, [], []⟩] :=
  ⟨_, h, rfl, rfl, rfl⟩

/-- Settles O22: the field is the low bits of the value, bit 0 first. -/
theorem bwPushAppendsField : Obligations.BwPushAppendsField := by
  intro value nbits s hwf hready
  have hbits : fieldBits value.toNat nbits = (List.range nbits).map (fun i => value.getLsbD i) := fieldBits_eq _ _
  refine ⟨exec_putBits hready hwf (by simp) (by rw [← hbits]; rfl), fun hfull => ?_,
    fun hn => decode_encode (i := .bwPush value nbits) (decide_eq_true hn)⟩
  exact faulted_answers_overflow (pushOverflowFaults value nbits s hwf hready.1 hready.2 hfull).1

/-- Settles O23: the reversed field is the low bits of the value, bit `nbits - 1` first. -/
theorem bwPushRevAppendsField : Obligations.BwPushRevAppendsField := by
  intro value nbits s hwf hready
  have hbits : fieldBitsRev value.toNat nbits = (List.range nbits).map (fun i => value.getLsbD (nbits - 1 - i)) :=
    (msbFirst_eq _ _).symm
  refine ⟨exec_putBits hready hwf (by simp) (by rw [← hbits]; rfl), fun hfull => ?_,
    fun hn => decode_encode (i := .bwPushRev value nbits) (decide_eq_true hn)⟩
  exact faulted_answers_overflow (pushOverflowFaults value nbits s hwf hready.1 hready.2 hfull).2

/-- `Aligned()` is an empty partial byte (R63). -/
theorem aligned_iff (w : BitWriter) : aligned w = true ↔ w.cnt = 0 := beq_iff_eq

/-- Settles O26: `Aligned()` as a scalar is the answer. -/
theorem bwAlignedAnswers : Obligations.BwAlignedAnswers := by
  intro s hready
  have hscalar : alignedScalar s.bw = if s.bw.cnt = 0 then 1 else 0 := by simp only [alignedScalar, aligned_iff]
  exact ⟨(exec_ok hready rfl).trans (by rw [hscalar]; rfl), decode_encode (i := .bwAligned) rfl⟩

/-- Settles O27: the rule of BW_CLEAR always answers, with the empty writer. -/
theorem bwClearEmpties : Obligations.BwClearEmpties :=
  fun _ hready => ⟨exec_ok hready rfl, decode_encode (i := .bwClear) rfl⟩

/-- Settles O28, by whether the partial byte is empty. -/
theorem bwExtractReturnsDone : Obligations.BwExtractReturnsDone := by
  intro s hready
  refine ⟨fun hcnt => ?_, fun hcnt => ?_, decode_encode (i := .bwExtract) rfl⟩
  · have hextract : extract s.bw = .ok s.bw.done := if_pos ((aligned_iff s.bw).mpr hcnt)
    exact exec_ok hready (by rw [bodyOf, hextract]; rfl)
  · have hextract : extract s.bw = .error .extractUnaligned := if_neg (mt (aligned_iff s.bw).mp hcnt)
    exact exec_error hready (by rw [bodyOf, hextract]; rfl)

end Sys2Proof.Machine
end

section
/-! PROOFS of the statements of 41_fixed_block_encoder.md: AlignStored, the answer of FE_ENCODE, what the decoder reads from it, and its
size. -/

namespace Sys2Proof.Machine

/-! ### AlignStored (R71) -/

/-- The pad depends on the pending bits alone (R71). -/
theorem alignBits_mod (k : Nat) : alignBits (k % 8) = alignBits k := by
  simp [alignBits, padCount, Nat.add_mod]

/-- With `cnt` bits pending the pad is zero bits up to the boundary and the bytes `00 00 FF FF` (R55, R71). -/
theorem alignBits_pending (cnt : Nat) (h : cnt < 8) (h0 : cnt ≠ 0) :
    alignBits cnt = List.replicate (8 * ((cnt + 3 + 7) / 8) - cnt) false ++ bitsOf [0x00, 0x00, 0xFF, 0xFF] := by
  have hbytes : List.replicate 16 false ++ List.replicate 16 true = bitsOf [0x00, 0x00, 0xFF, 0xFF] := by decide
  rw [← storedPad_eq, storedPad, Nat.mod_eq_of_lt h, if_neg h0, List.append_assoc, hbytes]

/-- A stream and its pad end on a byte boundary, with no bit pending (R71). -/
theorem packed_padded_cnt (xs : List Bool) : (packed (xs ++ alignBits xs.length)).cnt = 0 := by
  rw [← aligned_iff, aligned_packed, List.length_append, alignBits_aligned]
  rfl

/-- Settles O33: AlignStored pushes the bits of the pad that the pending bits ask for. -/
theorem alignStoredAppendsStoredBlock : Obligations.AlignStoredAppendsStoredBlock := by
  intro w hwf
  have hlt : w.cnt.toNat < 8 := w.cnt.isLt
  refine ⟨fun hcnt => if_pos ((aligned_iff w).mpr hcnt), fun hcnt => ?_⟩
  have hne : w.cnt.toNat ≠ 0 := fun h => hcnt (BitVec.eq_of_toNat_eq h)
  have hpad : alignBits (streamOf w).length = alignBits w.cnt.toNat := by
    rw [streamOf_length, ← alignBits_mod, Nat.mul_add_mod, alignBits_mod]
  refine ⟨packed (streamOf w ++ alignBits w.cnt.toNat), ?_, ?_, ?_, ?_⟩
  · rw [alignStored_eq_putBits none hwf, putBits_none_eq _ hwf]
  · rw [streamOf_packed, List.append_assoc, alignBits_pending _ hlt hne]
  · rw [← hpad, packed_padded_cnt]
  · have hbytes := alignBits_bytes w.cnt.toNat
    rw [Nat.mod_eq_of_lt hlt, if_neg hne] at hbytes
    rw [packed_done_length, List.length_append, streamOf_length]
    omega

/-! ### The answer of FE_ENCODE (R72) -/

/-- Settles O34, by what `FixedEncode` gives in the terms of the format. -/
theorem feEncodeAnswersFixedBlock : Obligations.FeEncodeAnswersFixedBlock :=
  fun _ _ hready hcap => exec_feEncode_ok hready hcap

/-! ### What the decoder reads from a fixed block (R18, R74) -/

/-- More fuel reads no other blocks. -/
theorem inflateBlocks_succ {untilFinal : Bool} {fuel : Nat} {bits : List Bool} {p : List Byte × List Bool}
    (h : inflateBlocks untilFinal fuel bits = some p) : inflateBlocks untilFinal (fuel + 1) bits = some p := by
  induction fuel generalizing bits p with
  | zero => cases h
  | succ fuel ih =>
    rw [inflateBlocks] at h ⊢
    by_cases hend : (!untilFinal && bits.isEmpty) = true
    · rwa [if_pos hend] at h ⊢
    · rw [if_neg hend] at h ⊢
      rcases hblock : inflateBlock bits with _ | ⟨final, out, rest⟩
      · simp only [hblock, reduceCtorEq] at h
      · cases final with
        | true => simpa [hblock] using h
        | false =>
          cases hmore : inflateBlocks untilFinal fuel rest with
          | none => simp [hblock, hmore] at h
          | some q => simpa [hblock, hmore, ih hmore] using h

theorem inflateBlocks_of_le {untilFinal : Bool} {j k : Nat} {bits : List Bool} {p : List Byte × List Bool} (hle : j ≤ k)
    (h : inflateBlocks untilFinal j bits = some p) : inflateBlocks untilFinal k bits = some p :=
  Nat.le_induction h (fun _ _ => inflateBlocks_succ) k hle

/-- The packing of whole bytes has the bits it packs. -/
theorem bitsOf_packBytes_of_aligned {bits : List Bool} (h : bits.length % 8 = 0) : bitsOf (packBytes bits) = bits :=
  bitsOf_packBytes (bits.length / 8) bits (Nat.mul_div_cancel' (Nat.dvd_of_mod_eq_zero h)).symm

theorem packBytes_bitsOf (bs : List Byte) : packBytes (bitsOf bs) = bs := by
  have h := packBytes_bitsOf_append bs []
  rwa [packBytes_short [] (by decide), List.append_nil, List.append_nil] at h

/-- A fixed block takes at least one byte: 10 bits stand around the literals (R73). -/
theorem fixedBlockStream_bytes_pos (data : List Byte) : 1 ≤ (fixedBlockStream data).length / 8 := by
  rw [fixedBlockStream_bytes, fixedCore_length]
  split <;> omega

/-- A fixed block is read as its data: the block, its pad if it has one, and then the end of the stream. -/
theorem decodeBlocks_fixedBlock (data : List Byte) : decodeBlocks (packBytes (fixedBlockStream data)) = some data := by
  obtain ⟨used, hle, -, hread⟩ := inflateBlocks_fixedStream false data [] rfl 1
  have hend : inflateBlocks false 1 [] = some ([], []) := rfl
  rw [hend, Option.map_some, List.append_nil, List.append_nil] at hread
  have hfuel : 1 + used ≤ 8 * ((fixedBlockStream data).length / 8) + 1 := by
    have := fixedBlockStream_bytes_pos data
    omega
  have hbits : bitsOf (packBytes (fixedBlockStream data)) = fixedStream data := by
    rw [fixedBlockStream_eq, bitsOf_packBytes_of_aligned (fixedStream_aligned data)]
  rw [decodeBlocks, packBytes_length, hbits, inflateBlocks_of_le hfuel hread]

/-- Settles O38: the bytes FE_ENCODE answers are the packing of the fixed block, and the decoder reads that. -/
theorem fixedBlockDecodes : Obligations.FixedBlockDecodes := by
  intro len s hready hcap
  exact ⟨_, _, exec_feEncode_ok hready (by rw [hcap]; rfl), rfl, decodeBlocks_fixedBlock (payload s)⟩

/-! ### The size of a fixed block (R73) -/

/-- A byte is at most 143 or at least 144, so its literal takes 8 bits or 9 (R54, R73). -/
theorem literals_length (data : List Byte) :
    (data.flatMap literalBits).length
      = 8 * data.countP (fun x => decide (x.toNat ≤ 143)) + 9 * data.countP (fun x => decide (144 ≤ x.toNat)) := by
  induction data with
  | nil => rfl
  | cons x xs ih =>
    simp only [List.flatMap_cons, List.length_append, literalBits_length, ih, List.countP_cons, decide_eq_true_eq]
    split_ifs <;> omega

/-! ### The block of zero bytes (R73) -/

/-- With three zero bits pending, each literal of a zero byte completes a byte `60` and leaves three zero bits pending. -/
theorem zeroLiterals_after_three (n : Nat) :
    List.replicate 3 false ++ (zeros n).flatMap literalBits = bitsOf (List.replicate n 0x60) ++ List.replicate 3 false := by
  have hstep : List.replicate 3 false ++ literalBits 0 = byteBits 0x60 ++ List.replicate 3 false := by decide
  induction n with
  | zero => rfl
  | succ n ih =>
    calc List.replicate 3 false ++ (zeros (n + 1)).flatMap literalBits
        = (List.replicate 3 false ++ literalBits 0) ++ (zeros n).flatMap literalBits := by rw [List.append_assoc]; rfl
      _ = byteBits 0x60 ++ (List.replicate 3 false ++ (zeros n).flatMap literalBits) := by rw [hstep, List.append_assoc]
      _ = bitsOf (List.replicate (n + 1) 0x60) ++ List.replicate 3 false := by
        rw [ih, List.replicate_succ (n := n), bitsOf_cons, List.append_assoc]

/-- The fixed block of zero bytes is, bit for bit, the bytes R73 lists. -/
theorem fixedBlockStream_zeros (n : Nat) : fixedBlockStream (zeros n) = bitsOf (zeroBlockBytes n) := by
  rw [fixedBlockStream_eq]
  cases n with
  | zero => decide
  | succ n =>
    have hfirst : [false] ++ [true, false] ++ literalBits 0 = byteBits 0x62 ++ List.replicate 3 false := by decide
    have hlast : List.replicate 3 false ++ (List.replicate 7 false ++ alignBits 2) = bitsOf [0x00, 0x00, 0x00, 0x00, 0xFF, 0xFF] := by
      decide
    have hcore : fixedCore (zeros (n + 1))
        = byteBits 0x62 ++ (bitsOf (List.replicate n 0x60) ++ (List.replicate 3 false ++ List.replicate 7 false)) := by
      rw [← List.append_assoc (bitsOf _), ← zeroLiterals_after_three, ← List.append_assoc, ← List.append_assoc, ← hfirst]
      simp only [fixedCore, List.append_assoc]
      rfl
    have hpad : alignBits (fixedCore (zeros (n + 1))).length = alignBits 2 := by
      rw [← alignBits_mod, fixedCore_length, literals_length_zeros]
      congr 1
      omega
    rw [fixedStream, hpad, hcore, zeroBlockBytes, if_neg (Nat.succ_ne_zero n), bitsOf_append, ← hlast]
    simp [List.append_assoc]

theorem zeroBlockBytes_length (n : Nat) : (zeroBlockBytes n).length = n + 6 := by
  rw [zeroBlockBytes]
  split
  · subst n; rfl
  · simp only [List.length_append, List.length_replicate, List.length_cons, List.length_nil]
    omega

/-- With no capacity `FixedEncode` answers the packing of the fixed block and leaves the writer cleared (R72). -/
theorem fixedEncode_unbounded (data : List Byte) (w : BitWriter) :
    fixedEncode none data w = .ok (packBytes (fixedBlockStream data), ⟨[], 0, 0⟩) :=
  fixedEncode_eq_fixedBlock none data w

/-- Settles O36: the block is counted bit by bit, and that of zero bytes is known bit by bit. -/
theorem fixedBlockSize : Obligations.FixedBlockSize := by
  refine ⟨fun data w => ⟨_, (fixedBlockCore data).length, fixedEncode_unbounded data w, ?_, rfl, ?_⟩,
    fun n w => ⟨?_, zeroBlockBytes_length n⟩⟩
  · rw [fixedBlockCore_eq, fixedCore_length, literals_length, Nat.add_assoc]
  · rw [packBytes_length, fixedBlockStream_bytes, fixedBlockCore_eq]
  · rw [fixedEncode_unbounded, fixedBlockStream_zeros, packBytes_bitsOf]

end Sys2Proof.Machine
end

section
/-! PROOFS of the statements of 42_zero_run_encoder.md: the length codes, the two paths of ZR_ENCODE in the terms of the format, the table
and the sizes of the large path, what the decoder reads from an answer, and the two checks that never fail. -/

namespace Sys2Proof.Machine

/-! ### The checks that never fail (R94, R95, R120) -/

/-- A rule that only wraps the value of `x` fails as `x` fails. -/
theorem error_of_bind_ok {α β : Type} {x : Except FaultCode α} {f : α → β} {e : FaultCode} (h : (x >>= fun a => .ok (f a)) = .error e) :
    x = .error e := by
  cases x with
  | error e' => cases h; rfl
  | ok a => cases h

/-- Only BW_EXTRACT on a pending partial byte and a full buffer make a rule fail: no rule fails with `ZrUnderflow` or `ZrExcessRange`. -/
theorem bodyOf_error_cases {i : Instr} {s : State} {e : FaultCode} (h : bodyOf i s = .error e) :
    e = .extractUnaligned ∨ e = .bwOverflow := by
  cases i with
  | bwPush | bwPushRev => exact .inr (putBits_error (error_of_bind_ok h))
  | bwExtract =>
    have hextract := error_of_bind_ok h
    rw [extract] at hextract
    split at hextract <;> cases hextract
    exact .inl rfl
  | feEncode len =>
    have hfixed := error_of_bind_ok h
    rw [fixedEncode_eq] at hfixed
    split at hfixed <;> cases hfixed
    exact .inr rfl
  | zrEncode n =>
    have hrun := error_of_bind_ok h
    rcases zeroRunEncode_cases s.params.bwCap n s.bw with ⟨e', he⟩ | he <;> rw [he] at hrun <;> cases hrun
    exact .inr rfl
  | bwAligned | bwClear | adLoad | adCombine | adZeroRun | adRead => cases h

/-- A command keeps the code or records one of the first four of R120: a wrong payload, an unaligned extraction or a full buffer. -/
theorem exec_faultCode {i : Instr} {s t : State} (h : exec i s = .next t) : t.faultCode = s.faultCode ∨ t.faultCode ≤ 4 := by
  rcases exec_cases i s with ⟨-, he⟩ | ⟨-, -, he⟩ | ⟨-, e, hbody, he⟩ | ⟨-, s', r, hbody, he⟩ <;> rw [he] at h <;> cases h
  · exact .inl rfl
  · exact .inr (by decide : (2 : BitVec 4) ≤ 4)
  · rcases bodyOf_error_cases hbody with rfl | rfl
    · exact .inr (by decide : (3 : BitVec 4) ≤ 4)
    · exact .inr (by decide : (4 : BitVec 4) ≤ 4)
  · rw [bodyOf_frame hbody]
    exact .inl rfl

/-- A step keeps the code, resets it to 0, or records one of the first four of R120. -/
theorem step_faultCode {s t : State} (h : step s = .next t) : t.faultCode = s.faultCode ∨ t.faultCode ≤ 4 := by
  rcases step_cases h with ⟨-, rfl⟩ | ⟨later, -, rfl⟩ | ⟨-, -, -, -, -, rfl⟩ | ⟨-, -, i, -, -, hexec⟩
  · exact .inl rfl
  · exact .inr (by decide : (0 : BitVec 4) ≤ 4)
  · rw [rejectWord]
    split
    · exact .inl rfl
    · exact .inr (by decide : (1 : BitVec 4) ≤ 4)
  · exact exec_faultCode hexec

/-- Settles O19: a step keeps the code or leaves one that is at most 4. -/
theorem zeroRunChecksNeverFail : Obligations.ZeroRunChecksNeverFail := by
  intro s t hstep h5 h6
  rcases step_faultCode hstep with hkeep | hle
  · rw [hkeep]
    exact ⟨h5, h6⟩
  · exact ⟨fun hcode => absurd (hcode ▸ hle) (by decide), fun hcode => absurd (hcode ▸ hle) (by decide)⟩

/-! ### The length codes (R81) -/

/-- Every row of the length table lies in 3..258 (R59). -/
theorem lengthTable_range : ∀ r ∈ lengthTable, 3 ≤ r.first ∧ r.last ≤ 258 := by decide

/-- No row holds a length outside 3..258, so LengthCode faults (R81). -/
theorem lengthCode_error {L : Nat} (h : L < 3 ∨ 258 < L) : lengthCode L = .error .zrExcessRange := by
  have hnone : lengthTable.find? (fun r => decide (r.first ≤ L) && decide (L ≤ r.last)) = none := by
    rw [List.find?_eq_none]
    intro r hr
    obtain ⟨hfirst, hlast⟩ := lengthTable_range r hr
    simp only [Bool.and_eq_true, decide_eq_true_eq]
    omega
  simp only [lengthCode, hnone]

/-- Settles O45: inside 3..258 row by row, outside because no row is there. -/
theorem lengthCodeTable : Obligations.LengthCodeTable :=
  fun _ => ⟨fun ⟨h1, h2⟩ => (lengthCode_ok h1 h2).1, lengthCode_error⟩

/-! ### The preamble of each excess symbol (R96) -/

theorem excessSymbol_code_range (n : Nat) : 257 ≤ (excessSymbol n).code ∧ (excessSymbol n).code ≤ 284 := by
  rw [← (excessOf_code n).1]
  exact excessOf_xc n

/-- The row of the table of R96 for the excess symbol `xc`, computed from the preamble's bits. -/
def preambleRow (xc : Nat) : Nat × Nat × Nat × Nat × Nat × Nat × Nat :=
  (xc, xc - 257, 284 - xc, treesEnd xc, owedUnits xc, loopUnits xc, (preambleStream xc).length / 8)

/-- Every row of the table is the computed one, field by field. -/
theorem eq_preambleRow_of_mem : ∀ row ∈ preambleRows, row = preambleRow row.1 := by
  simp only [Prod.ext_iff]
  decide +kernel

theorem preambleRows_symbols : preambleRows.map Prod.fst = List.range' 257 28 := by decide

/-- The table has a row for every excess symbol. -/
theorem preambleRow_mem (n : Nat) : preambleRow (excessSymbol n).code ∈ preambleRows := by
  obtain ⟨h1, h2⟩ := excessSymbol_code_range n
  have hsymbol : (excessSymbol n).code ∈ preambleRows.map Prod.fst := by
    rw [preambleRows_symbols, List.mem_range'_1]
    omega
  obtain ⟨row, hrow, hfst⟩ := List.mem_map.mp hsymbol
  rwa [← hfst, ← eq_preambleRow_of_mem row hrow]

theorem preambleRows_bytes :
    ∀ row ∈ preambleRows, row.2.2.2.2.2.2 = 15 ∨ row.2.2.2.2.2.2 = 16 ∨ row.2.2.2.2.2.2 = 17 := by decide

/-- The preamble takes 15, 16 or 17 bytes (R96). -/
theorem preambleStream_bytes (n : Nat) :
    (preambleStream (excessSymbol n).code).length / 8 = 15 ∨ (preambleStream (excessSymbol n).code).length / 8 = 16
      ∨ (preambleStream (excessSymbol n).code).length / 8 = 17 :=
  preambleRows_bytes _ (preambleRow_mem n)

/-! ### Units and the size of the postamble (R92, R94, R96) -/

theorem absorbedUnits_le (n : Nat) : absorbedUnits n ≤ 4 := by
  have howed := zrOwed_le (excessOf n).xc
  have hloops := zrLoops_le (excessOf n).xc
  rw [absorbedUnits_eq, zrAbsorbed]
  omega

theorem leftUnits_le (n : Nat) : leftUnits n ≤ 3 := by
  rw [leftUnits]
  omega

/-- The accounting identity of R94: the literal, the units absorbed, those of the middle and those left over, and the excess. -/
theorem zeroRun_accounting {n : Nat} (hn : 1032 < n) :
    n = 1 + 258 * (absorbedUnits n + 4 * middleCount n + leftUnits n) + numExcess n := by
  have habsorbed := absorbedUnits_le n
  rw [middleCount, leftUnits, numExcess]
  omega

/-- The excess takes at most 9 bits: two literals, or a symbol of 3 bits, its extra bits and the distance bit. -/
theorem excessBits_length_le (n : Nat) : (excessBits (excessOf n)).length ≤ 9 := by
  by_cases h : (excessOf n).num < 3
  · rw [excessBits, if_pos h]
    simp only [List.length_flatten, List.map_replicate, List.sum_replicate_nat, List.length_cons, List.length_nil]
    omega
  · rw [excessOf_num] at h
    obtain ⟨-, -, -, heb, -⟩ := lengthCode_ok (L := (n - 1) % 258) (by omega) (by omega)
    rw [excessBits, excessOf_num, if_neg h, excessOf, if_pos (by omega)]
    simp only [List.length_append, List.length_cons, List.length_nil, fieldBits_length]
    omega

/-- Before its pad the postamble has 3 to 19 bits (R92). -/
theorem postambleCore_length (n : Nat) : 3 ≤ (postambleCore n).length ∧ (postambleCore n).length ≤ 19 := by
  have howed := zrOwed_le (excessSymbol n).code
  have hleft := leftUnits_le n
  have hexcess := excessBits_length_le n
  simp only [postambleCore, excessStream_eq, owedUnits_eq, bitString, List.length_append, List.length_replicate, List.length_map,
    List.length_cons, List.length_nil]
  omega

/-- The postamble takes 1, 2, 5, 6 or 7 bytes (R96). -/
theorem postambleStream_bytes (n : Nat) :
    (postambleStream n).length / 8 = 1 ∨ (postambleStream n).length / 8 = 2 ∨ (postambleStream n).length / 8 = 5
      ∨ (postambleStream n).length / 8 = 6 ∨ (postambleStream n).length / 8 = 7 := by
  obtain ⟨h1, h2⟩ := postambleCore_length n
  rw [postambleStream, storedPad_eq, List.length_append, alignBits_bytes]
  split <;> omega

/-- The preamble is the longer of the two parts. -/
theorem postamble_le_preamble (n : Nat) : (postambleStream n).length / 8 ≤ (preambleStream (excessSymbol n).code).length / 8 := by
  have hpre := preambleStream_bytes n
  have hpost := postambleStream_bytes n
  omega

/-! ### The two paths in the terms of the format (R80) -/

/-- The small path answers the fixed block of `n` zero bytes (R86). -/
theorem zeroRunEncode_small {cap : Option Nat} {n : Nat} (w : BitWriter) (hn : n ≤ 1032) (hcap : capAtLeast cap (n + 6) = true) :
    zeroRunEncode cap n w = .ok (.plain (zeroBlockBytes n), BitWriter.empty) := by
  rw [zeroRunEncode, if_pos (show n ≤ zrThreshold from hn), fixedEncode_eq_fixedBlock, fixedBlockStream_bytes_zeros, if_pos hcap,
    fixedBlockStream_zeros, packBytes_bitsOf]
  rfl

/-- The large path answers the TRIPLE of the rules when the preamble fits (R87 to R93). -/
theorem zeroRunEncode_large {cap : Option Nat} {n : Nat} (w : BitWriter) (hn : 1032 < n)
    (hcap : capAtLeast cap ((preambleStream (excessSymbol n).code).length / 8) = true) :
    zeroRunEncode cap n w = .ok (largeBlock n, BitWriter.empty) := by
  have hpost := capAtLeast_of_le (postamble_le_preamble n) hcap
  rw [zeroRunEncode, if_neg (show ¬ n ≤ zrThreshold from Nat.not_le_of_lt hn), zeroRunLarge_eq cap n w hn, hasSpace_zero, hasSpace_zero,
    ← postambleStream_eq, ← preambleStream_eq, (excessOf_code n).1, if_pos ⟨hcap, hpost⟩, ← middleCount_eq, largeBlock]

/-- ZR_ENCODE past the common checks: the answer of the encoder, the writer cleared, no other register written. -/
theorem exec_zrEncode_ok {n : Nat} {s : State} {e : EncodedBlock} (hready : Ready (.zrEncode n) s)
    (hrun : zeroRunEncode s.params.bwCap n s.bw = .ok (e, BitWriter.empty)) :
    exec (.zrEncode n) s = .next { answered s (respBlock e) with bw := ⟨[], 0, 0⟩ } := by
  have hbody : bodyOf (.zrEncode n) s = .ok (setBw s BitWriter.empty, respBlock e) := by
    rw [bodyOf, hrun]
    rfl
  exact exec_ok hready hbody

/-- Settles O40, by what the small path answers. -/
theorem zrEncodeSmallRun : Obligations.ZrEncodeSmallRun :=
  fun n s hready hn hcap => ⟨exec_zrEncode_ok hready (zeroRunEncode_small s.bw hn hcap), zeroBlockBytes_length n⟩

/-- Settles O41, by what the large path answers. -/
theorem zrEncodeLargeRun : Obligations.ZrEncodeLargeRun :=
  fun _ s hready hn hcap => exec_zrEncode_ok hready (zeroRunEncode_large s.bw hn hcap)

/-- Settles O44: the row is the computed one of the excess symbol. -/
theorem preambleTable : Obligations.PreambleTable := by
  intro n hn
  refine ⟨_, preambleRow_mem n, _, _, _, zeroRunEncode_large _ hn rfl, ?_, rfl⟩
  rw [packBytes_length, preambleRow]

/-- Settles O43: the sizes of the two streams, and the accounting of units. -/
theorem zeroRunSizes : Obligations.ZeroRunSizes := by
  intro n hn
  have hpre := preambleStream_bytes n
  have hpost := postambleStream_bytes n
  refine ⟨_, _, zeroRunEncode_large _ hn rfl, ?_⟩
  rw [packBytes_length, packBytes_length]
  exact ⟨hpre, hpost, by omega, by omega, absorbedUnits_le n, leftUnits_le n, zeroRun_accounting hn⟩

/-! ### What the decoder reads from a zero run (R18, R94, R97) -/

/-- All the units of a large run. -/
def zeroRunUnits (n : Nat) : Nat := absorbedUnits n + 4 * middleCount n + leftUnits n

/-- The postamble's core begins with zero bits: the owed bit and the left-over pairs (R92). -/
theorem postambleCore_eq_zeros (n : Nat) :
    postambleCore n = List.replicate (zrOwed (excessOf n).xc + 2 * leftUnits n) false
      ++ (excessBits (excessOf n) ++ [true, true, false]) := by
  rw [postambleCore, owedUnits_eq, ← (excessOf_code n).1, excessStream_eq, ← List.replicate_add, List.append_assoc]
  rfl

/-- The flattened TRIPLE is one zero-run block and its pad: the zero bits that end the preamble, the middle bytes and the zero bits that
begin the postamble are together two bits for every unit (R82, R91). -/
theorem bitsOf_flatten_largeBlock (n : Nat) :
    bitsOf (flatten (largeBlock n))
      = zrHeadBits (excessOf n).xc ++ ([true, false] ++ (List.replicate (2 * zeroRunUnits n) false
          ++ (excessBits (excessOf n) ++ ([true, true, false] ++ alignBits (postambleCore n).length)))) := by
  have hpre : bitsOf (packBytes (preambleStream (excessSymbol n).code)) = preBits (excessOf n).xc := by
    rw [preambleStream_eq, ← (excessOf_code n).1, bitsOf_packBytes_of_aligned (preBits_aligned _)]
  have hpost : bitsOf (packBytes (postambleStream n)) = (List.replicate (zrOwed (excessOf n).xc + 2 * leftUnits n) false
      ++ (excessBits (excessOf n) ++ [true, true, false])) ++ alignBits (postambleCore n).length := by
    rw [bitsOf_packBytes_of_aligned (by rw [postambleStream_eq]; exact postBits_aligned _ _ _), ← postambleCore_eq_zeros,
      postambleStream, storedPad_eq]
  have hunits : 2 * zeroRunUnits n = zrOwed (excessOf n).xc + 2 * zrLoops (excessOf n).xc + (8 * middleCount n
      + (zrOwed (excessOf n).xc + 2 * leftUnits n)) := by
    rw [zeroRunUnits, absorbedUnits_eq, zrAbsorbed]
    omega
  rw [largeBlock, flatten, bitsOf_append, bitsOf_append, hpre, hpost, bitsOf_zeros, hunits, preBits]
  simp only [List.replicate_add, List.append_assoc]

/-- The zero-run block of a large run is read as `n` zero bytes, whatever follows it. -/
theorem inflateBlock_largeRun {n : Nat} (hn : 1032 < n) (rest : List Bool) :
    inflateBlock (bitsOf (flatten (largeBlock n)) ++ rest)
      = some (false, zeros n, alignBits (postambleCore n).length ++ rest) := by
  have hlen : 1 + 258 * zeroRunUnits n + (excessOf n).num = n := by
    rw [excessOf_num]
    exact (zeroRun_accounting hn).symm
  have hread := inflateBlock_zeroRun n (zeroRunUnits n) (alignBits (postambleCore n).length ++ rest)
  rw [hlen] at hread
  rw [bitsOf_flatten_largeBlock, ← hread]
  simp only [List.append_assoc]

/-- The pad that brings a stream of `k` bits to a byte boundary is no block or one empty block. -/
theorem inflateBlocks_alignBits (untilFinal : Bool) (k : Nat) {rest : List Bool} (hr : rest.length % 8 = 0) (fuel : Nat) :
    ∃ used ≤ 1, inflateBlocks untilFinal (fuel + used) (alignBits k ++ rest) = inflateBlocks untilFinal fuel rest := by
  by_cases hk : k % 8 = 0
  · exact ⟨0, by decide, by rw [alignBits, if_pos hk]; rfl⟩
  · have hne : alignBits k ++ rest ≠ [] := by simp [alignBits, hk]
    refine ⟨1, by decide, (inflateBlocks_step hne (inflateBlock_pad k rest hk hr)).trans ?_⟩
    simp

/-- A large run and then more blocks: at most two units of fuel. -/
theorem inflateBlocks_largeRun (untilFinal : Bool) {n : Nat} (hn : 1032 < n) {rest : List Bool} (hr : rest.length % 8 = 0) (fuel : Nat) :
    ∃ used ≤ 2, inflateBlocks untilFinal (fuel + used) (bitsOf (flatten (largeBlock n)) ++ rest)
      = (inflateBlocks untilFinal fuel rest).map (fun p => (zeros n ++ p.1, p.2)) := by
  obtain ⟨used, hused, hpad⟩ := inflateBlocks_alignBits untilFinal (postambleCore n).length hr fuel
  have hne : bitsOf (flatten (largeBlock n)) ++ rest ≠ [] := by simp [bitsOf_flatten_largeBlock]
  refine ⟨used + 1, by omega, ?_⟩
  rw [← Nat.add_assoc, inflateBlocks_step hne (inflateBlock_largeRun hn rest), hpad]

theorem largeBlock_bytes_pos (n : Nat) : 1 ≤ (flatten (largeBlock n)).length := by
  have hpost := postambleStream_bytes n
  rw [largeBlock, flatten, List.length_append, packBytes_length _]
  omega

/-- The flattened TRIPLE is read as `n` zero bytes: the block, its pad if it has one, and then the end of the stream. -/
theorem decodeBlocks_largeBlock {n : Nat} (hn : 1032 < n) : decodeBlocks (flatten (largeBlock n)) = some (zeros n) := by
  obtain ⟨used, hle, hread⟩ := inflateBlocks_largeRun false hn (rest := []) rfl 1
  have hend : inflateBlocks false 1 [] = some ([], []) := rfl
  rw [hend, Option.map_some, List.append_nil, List.append_nil] at hread
  have hfuel : 1 + used ≤ 8 * (flatten (largeBlock n)).length + 1 := by
    have := largeBlock_bytes_pos n
    omega
  rw [decodeBlocks, inflateBlocks_of_le hfuel hread]

/-- The fixed block of zero bytes is read as those bytes (R74, R86). -/
theorem decodeBlocks_zeroBlockBytes (n : Nat) : decodeBlocks (zeroBlockBytes n) = some (zeros n) := by
  have h := decodeBlocks_fixedBlock (zeros n)
  rwa [fixedBlockStream_zeros, packBytes_bitsOf] at h

/-- The host gets the block back from the answer: a count below 2^64 fits the scalar (R18, R49). -/
theorem blockOf_respBlock_largeBlock {n : Nat} (hn : n < 2 ^ 64) : blockOf (respBlock (largeBlock n)) = some (largeBlock n) := by
  have hcount : (BitVec.ofNat 64 (middleCount n)).toNat = middleCount n := by
    refine Nat.mod_eq_of_lt (Nat.lt_of_le_of_lt ?_ hn)
    rw [middleCount]
    omega
  simp only [largeBlock, respBlock, respTriple, blockOf, hcount]

/-- Settles O47, path by path: what each answers, and what the decoder reads from that. -/
theorem zeroRunDecodes : Obligations.ZeroRunDecodes := by
  intro n s h64 hready hcap
  by_cases hn : n ≤ 1032
  · have hrun := zeroRunEncode_small s.bw hn (capAtLeast_of_le (by omega) hcap)
    exact ⟨_, _, _, exec_zrEncode_ok hready hrun, rfl, rfl, rfl, decodeBlocks_zeroBlockBytes n⟩
  · have hlarge : 1032 < n := Nat.lt_of_not_le hn
    have hpre := preambleStream_bytes n
    have hrun := zeroRunEncode_large s.bw hlarge (capAtLeast_of_le (by omega) hcap)
    exact ⟨_, _, _, exec_zrEncode_ok hready hrun, rfl, respBlock_status _, blockOf_respBlock_largeBlock h64,
      decodeBlocks_largeBlock hlarge⟩

end Sys2Proof.Machine
end

section
/-! PROOFS of the statements of 43_adler32_accumulator.md: the two halves of the checksum, the laws of the two checksum functions, and the
answers of the four commands. -/

namespace Sys2Proof.Machine

/-! ### The two halves of a checksum (R13) -/

theorem adlerS1_eq_mod (c : Word32) : adlerS1 c = c.toNat % 65536 := by
  simp only [adlerS1, BitVec.extractLsb'_toNat, Nat.shiftRight_zero, Nat.reducePow]

theorem adlerS2_eq_div (c : Word32) : adlerS2 c = c.toNat / 65536 := by
  have := c.isLt
  simp only [adlerS2, BitVec.extractLsb'_toNat, Nat.shiftRight_eq_div_pow]
  omega

/-- Checksums with equal halves are equal. -/
theorem eq_of_adler_halves {c d : Word32} (h1 : adlerS1 c = adlerS1 d) (h2 : adlerS2 c = adlerS2 d) : c = d := by
  rw [← adlerPack_halves c, h1, h2, adlerPack_halves]

/-! ### The loop of R100 -/

/-- The lower half after a payload. -/
theorem adlerS1_combine (c : Word32) (data : List Byte) :
    adlerS1 (adlerCombine c data) = (adlerSums data (adlerS1 c, adlerS2 c)).1 :=
  congrArg Prod.fst (adlerCombine_halves c data)

/-- The upper half after a payload. -/
theorem adlerS2_combine (c : Word32) (data : List Byte) :
    adlerS2 (adlerCombine c data) = (adlerSums data (adlerS1 c, adlerS2 c)).2 :=
  congrArg Prod.snd (adlerCombine_halves c data)

/-- The loop is a left fold of R100's recurrence. -/
theorem adlerSums_eq_foldl (data : List Byte) (p : Nat × Nat) :
    adlerSums data p = data.foldl (fun p b => ((p.1 + b.toNat) % 65521, (p.2 + (p.1 + b.toNat) % 65521) % 65521)) p := by
  induction data generalizing p with
  | nil => rfl
  | cons b bs ih => exact ih _

/-- One byte brings both sub-sums below 65521, whatever they were. -/
theorem adlerSums_cons_le (b : Byte) (bs : List Byte) (p : Nat × Nat) :
    (adlerSums (b :: bs) p).1 ≤ 65520 ∧ (adlerSums (b :: bs) p).2 ≤ 65520 := by
  have hmod (k : Nat) : k % adlerMod ≤ 65520 := Nat.le_of_lt_succ (Nat.mod_lt k (by decide))
  exact adlerSums_le bs _ (hmod _) (hmod _)

/-- Modulo 65521, `n` zero bytes keep `s1` and add `n * s1` to `s2` (R106). -/
theorem adlerSums_zeros_modEq (n : Nat) (p : Nat × Nat) :
    (adlerSums (zeros n) p).1 ≡ p.1 [MOD 65521] ∧ (adlerSums (zeros n) p).2 ≡ p.2 + n * p.1 [MOD 65521] := by
  induction n generalizing p with
  | zero => exact ⟨rfl, by rw [Nat.zero_mul]; rfl⟩
  | succ n ih =>
    obtain ⟨h1, h2⟩ := ih (p.1 % 65521, (p.2 + p.1 % 65521) % 65521)
    have hs1 : p.1 % 65521 ≡ p.1 [MOD 65521] := Nat.mod_modEq _ _
    have hs2 : (p.2 + p.1 % 65521) % 65521 ≡ p.2 + p.1 [MOD 65521] := (Nat.mod_modEq _ _).trans (hs1.add_left _)
    have hsum : p.2 + (n + 1) * p.1 = p.2 + p.1 + n * p.1 := by ring
    rw [hsum]
    exact ⟨h1.trans hs1, h2.trans (hs2.add (hs1.mul_left n))⟩

/-! ### The laws of the two functions (R106) -/

theorem adlerCombine_nil (c : Word32) : adlerCombine c [] = c := adlerPack_halves c

/-- A payload may be split anywhere, canonical checksum or not (R103). -/
theorem adlerCombine_append (c : Word32) (x y : List Byte) : adlerCombine (adlerCombine c x) y = adlerCombine c (x ++ y) := by
  rw [adlerCombine, adlerCombine_halves, ← adlerSums_append]
  rfl

/-- A payload that is not empty gives a canonical checksum from any other. -/
theorem adlerCombine_cons_canonical (c : Word32) (b : Byte) (bs : List Byte) : adlerCanonical (adlerCombine c (b :: bs)) = true := by
  rw [adlerCanonical_iff, adlerS1_combine, adlerS2_combine]
  exact adlerSums_cons_le b bs _

/-- Two zero runs are one of their sum, canonical checksum or not. -/
theorem adlerZeroRun_add (c : Word32) (a b : Nat) : adlerZeroRun (adlerZeroRun c a) b = adlerZeroRun c (a + b) := by
  obtain ⟨hs1, hs2⟩ := adlerZeroRun_halves c a
  rw [adlerZeroRun, hs1, hs2, adlerMod, Nat.mod_add_mod, Nat.add_assoc, ← Nat.add_mul]
  rfl

/-- The length of a zero run counts modulo 65521 only. -/
theorem adlerZeroRun_mod (c : Word32) (n : Nat) : adlerZeroRun c n = adlerZeroRun c (n % 65521) := by
  have hs2 : adlerS2 c + n * adlerS1 c ≡ adlerS2 c + n % 65521 * adlerS1 c [MOD adlerMod] :=
    ((Nat.mod_modEq n adlerMod).symm.mul_right _).add_left _
  rw [adlerZeroRun, adlerZeroRun, hs2]

/-- The upper half after `n` zero bytes is that after a zero run, where it is already reduced. -/
theorem adlerS2_zeroRun_eq_combine {c : Word32} {n : Nat} (h : adlerS2 (adlerCombine c (zeros n)) ≤ 65520) :
    adlerS2 (adlerZeroRun c n) = adlerS2 (adlerCombine c (zeros n)) := by
  have hmod := (adlerSums_zeros_modEq n (adlerS1 c, adlerS2 c)).2
  rw [← adlerS2_combine] at hmod
  rw [(adlerZeroRun_halves c n).2, ← Nat.mod_eq_of_lt (Nat.lt_succ_of_le h)]
  exact hmod.symm

/-- The lower half after `n` zero bytes is that after a zero run, where both are already reduced. -/
theorem adlerS1_zeroRun_eq_combine {c : Word32} {n : Nat} (hc : adlerS1 c ≤ 65520) (h : adlerS1 (adlerCombine c (zeros n)) ≤ 65520) :
    adlerS1 (adlerZeroRun c n) = adlerS1 (adlerCombine c (zeros n)) := by
  have hmod := (adlerSums_zeros_modEq n (adlerS1 c, adlerS2 c)).1
  rw [← adlerS1_combine] at hmod
  rw [(adlerZeroRun_halves c n).1]
  exact (hmod.eq_of_lt_of_lt (Nat.lt_succ_of_le h) (Nat.lt_succ_of_le hc)).symm

/-- From a canonical checksum a zero run is a payload of zero bytes. -/
theorem adlerZeroRun_eq_combine_zeros {c : Word32} (h : adlerCanonical c = true) (n : Nat) :
    adlerZeroRun c n = adlerCombine c (zeros n) := by
  obtain ⟨hout1, hout2⟩ := (adlerCanonical_iff _).mp (adlerCombine_canonical h (zeros n))
  obtain ⟨hc, -⟩ := (adlerCanonical_iff c).mp h
  exact eq_of_adler_halves (adlerS1_zeroRun_eq_combine hc hout1) (adlerS2_zeroRun_eq_combine hout2)

/-- Settles O52: only the first law and the last two need the canonical value. -/
theorem adlerLaws : Obligations.AdlerLaws :=
  fun c h => ⟨adlerZeroRun_eq_combine_zeros h, adlerZeroRun_add c, adlerCombine_append c, adlerZeroRun_canonical h,
    adlerCombine_canonical h⟩

/-- Settles O53: one byte is enough to reduce the halves that a zero run is compared with. -/
theorem adlerTotalOnAnyChecksum : Obligations.AdlerTotalOnAnyChecksum := by
  intro c
  refine ⟨adlerCombine_nil c, adlerZeroRun_mod c, fun n hn => ?_, adlerCombine_cons_canonical c⟩
  obtain ⟨k, rfl⟩ := Nat.exists_eq_add_of_le' hn
  exact adlerS2_zeroRun_eq_combine ((adlerCanonical_iff _).mp (adlerCombine_cons_canonical c 0 (zeros k))).2

/-! ### The commands (R102 to R105) -/

/-- A command whose rule sets the checksum and answers it: SCALAR, and no other register is written. -/
theorem exec_setAdler {i : Instr} {s : State} {c : Word32} (hready : Ready i s)
    (hbody : bodyOf i s = .ok (setAdler s c, respScalar (zextAdler c))) :
    exec i s = .next { answered s ⟨0, .scalar, c.setWidth 64, [], []⟩ with adler := c } :=
  exec_ok hready hbody

/-- Settles O49: the loop of R100 is the fold. -/
theorem adCombineFolds : Obligations.AdCombineFolds := by
  intro len s hready
  refine ⟨_, exec_setAdler hready rfl, ?_, fun hlen => decode_encode (i := .adCombine len) (decide_eq_true hlen)⟩
  simp only [← adlerS1_eq_mod, ← adlerS2_eq_div]
  rw [adlerCombine_halves, adlerSums_eq_foldl]

/-- Settles O50, by the two halves that R101 gives. -/
theorem adZeroRunClosedForm : Obligations.AdZeroRunClosedForm := by
  intro n s hready
  obtain ⟨hs1, hs2⟩ := adlerZeroRun_halves s.adler n
  simp only [adlerS1_eq_mod, adlerS2_eq_div] at hs1 hs2
  exact ⟨_, exec_setAdler hready rfl, hs1, hs2, fun hn => decode_encode (i := .adZeroRun n) (decide_eq_true hn)⟩

/-- The word of AD_LOAD is read by the two halves of its `arg` (R46, R102). -/
theorem decode_adLoadWord (hi lo : BitVec 32) :
    decode (buildWord 0x7 0 (hi ++ lo)) = if hi = 0 then .ok (.adLoad lo) else .error .argNotZero := by
  have hhigh : (hi ++ lo).extractLsb' 32 32 = hi := BitVec.extractLsb'_append_eq_left
  have hlow : (hi ++ lo).extractLsb' 0 32 = lo := BitVec.extractLsb'_append_eq_right
  simp [decode, decodeOp, decodeAdLoad, hhigh, hlow]

/-- Settles O48: the rule of AD_LOAD takes any value, and the upper half of its `arg` decides whether there is one. -/
theorem adLoadWrites : Obligations.AdLoadWrites :=
  fun _ _ hready => ⟨exec_setAdler hready rfl, decode_adLoadWord⟩

/-- Settles O51: the rule of AD_READ always answers, with the state it finds. -/
theorem adReadAnswers : Obligations.AdReadAnswers :=
  fun _ hready => ⟨exec_ok hready rfl, decode_encode (i := .adRead) rfl⟩

end Sys2Proof.Machine
end

section
/-! PROOFS of the statements of 44_host_zlibstream.md: the length and the chunks of a stream, the terminating block, and what the decoder
reads from the stream of any list of calls. -/

namespace Sys2Proof.Machine

/-! ### The length of a stream and its chunks (R113, R114) -/

/-- `total_length` counts header, blocks, terminating block and trailer as `produce` writes them. -/
theorem produce_length (blocks : List EncodedBlock) (c : Word32) : (produce blocks c).length = totalLength blocks := by
  have hblocks : (blocks.flatMap flatten).length = (blocks.map blockLen).sum := List.length_flatMap
  simp only [produce, totalLength, List.length_append, hblocks]
  rfl

/-- The sub-chunks are the zero bytes: `z / chunk` full ones and the remainder. -/
theorem zeroChunks_flatten (chunk z : Nat) : (zeroChunks chunk z).flatten = zeros z := by
  have hfull : (List.replicate (z / chunk) (zeros chunk)).flatten = zeros (z / chunk * chunk) := List.flatten_replicate_replicate
  rw [zeroChunks, List.flatten_append, hfull, List.flatten_singleton, zeros_append, Nat.div_add_mod']

theorem blockChunks_flatten (chunk : Nat) (e : EncodedBlock) : (blockChunks chunk e).flatten = flatten e := by
  cases e with
  | plain b => exact List.flatten_singleton
  | triple p z q => simp [blockChunks, flatten, zeroChunks_flatten]

theorem flatMap_blockChunks_flatten (chunk : Nat) (blocks : List EncodedBlock) :
    (blocks.flatMap (blockChunks chunk)).flatten = blocks.flatMap flatten := by
  induction blocks with
  | nil => rfl
  | cons e es ih => rw [List.flatMap_cons, List.flatten_append, blockChunks_flatten, ih, List.flatMap_cons]

theorem produceChunks_flatten (chunk : Nat) (blocks : List EncodedBlock) (c : Word32) :
    (produceChunks chunk blocks c).flatten = produce blocks c := by
  simp [produceChunks, produce, flatMap_blockChunks_flatten]

/-- Settles O57: the length part by part, the chunks block by block. -/
theorem lengthAccuracy : Obligations.LengthAccuracy :=
  fun blocks c => ⟨produce_length blocks c, fun chunk _ => produceChunks_flatten chunk blocks c⟩

/-! ### FINAL_BLOCK (R52, R115) -/

/-- The host's pushes where the buffer, finite or not, has room for all their bits: the run goes on from a writer that holds them. -/
theorem run_pushCommands_fit (k : Nat) (fields : List (Word64 × Nat)) {s : State} {w : BitWriter} {later : List HostAction}
    (hn : ∀ f ∈ fields, f.2 < 64) (hf : s.faultValid = false)
    (hput : putBits s.params.bwCap (pushedBits fields) s.bw = .ok w)
    (hin : s.input = hostActions (pushCommands fields) ++ later) :
    ∃ t : State, Host.Core.run core (k + fields.length) s = Host.Core.run core k t
      ∧ t.faultValid = false ∧ t.input = later ∧ t.bw = w := by
  induction fields generalizing s with
  | nil => exact ⟨s, rfl, hf, hin, by cases hput; rfl⟩
  | cons f fs ih =>
    rw [pushedBits, List.flatMap_cons, putBits_append] at hput
    obtain ⟨v, hfirst, hrest⟩ : ∃ v, putBits s.params.bwCap (fieldBits f.1.toNat f.2) s.bw = .ok v
        ∧ putBits s.params.bwCap (pushedBits fs) v = .ok w := by
      cases hv : putBits s.params.bwCap (fieldBits f.1.toNat f.2) s.bw with
      | ok v => exact ⟨v, rfl, by rwa [hv] at hput⟩
      | error e => rw [hv] at hput; cases hput
    have hbody : bodyOf (.bwPush f.1 f.2) s = .ok (setBw s v, respNone) := by
      simp only [bodyOf, push, hfirst]
      rfl
    have hwf : (Instr.bwPush f.1 f.2).WellFormed := decide_eq_true (hn f List.mem_cons_self)
    have hnext : (answer (setBw s v) respNone).input = hostActions (pushCommands fs) ++ later := by
      rw [answer_input, setBw_input, hin]
      rfl
    obtain ⟨t, hrun, ht⟩ := ih (s := answer (setBw s v) respNone) (fun g hg => hn g (List.mem_cons_of_mem f hg)) hf hrest hnext
    exact ⟨t, (run_command _ hin hwf hf rfl hbody).trans hrun, ht⟩

/-- The fields FINAL_BLOCK pushes (R52). -/
def finalFields : List (Word64 × Nat) := [(1, 1), (0, 2), (0, 5), (0x0000, 16), (0xFFFF, 16)]

/-- The terminating block is, bit for bit, the fields that FINAL_BLOCK pushes (R115). -/
theorem pushedBits_finalFields : pushedBits finalFields = bitsOf finalBlock := by decide

/-- The 5 bytes of the terminating block fit an empty buffer of 5 bytes or more. -/
theorem putBits_finalFields {cap : Option Nat} (hcap : capAtLeast cap 5 = true) :
    putBits cap (pushedBits finalFields) BitWriter.empty = .ok (packed (bitsOf finalBlock)) := by
  rw [pushedBits_finalFields, ← packed_nil, putBits_packed]
  exact if_pos ((hasSpace_zero cap 5).trans hcap)

/-- Settles O55: the cleared writer takes the pushes, and what it extracts is the packing of their bits. -/
theorem finalBlockBytes : Obligations.FinalBlockBytes := by
  intro s later hf hcap hin
  have hclear : Host.Core.run core 7 s = Host.Core.run core 6 (answer (setBw s BitWriter.empty) respNone) :=
    run_command 6 hin rfl hf rfl rfl
  have hpushes : (answer (setBw s BitWriter.empty) respNone).input
      = hostActions (pushCommands finalFields) ++ (.command (commandOf .bwExtract []) :: later) := by
    rw [answer_input, setBw_input, hin]
    rfl
  obtain ⟨t, hrun, hvalid, hinput, hbw⟩ :=
    run_pushCommands_fit (s := answer (setBw s BitWriter.empty) respNone) 1 finalFields (by decide) hf (putBits_finalFields hcap)
      hpushes
  have hbody : bodyOf .bwExtract t = .ok (t, respPlain finalBlock) := by
    simp only [bodyOf, hbw, extract_packed, packBytes_bitsOf]
    rfl
  refine ⟨answer t (respPlain finalBlock), hclear.trans (hrun.trans (run_command 0 hinput rfl hvalid rfl hbody)), hvalid, ?_, ?_⟩
  · rw [answer_input, hinput, List.tail_cons]
  · rw [answer_responses, List.getLast?_concat]
    rfl

/-! ### The block of a call (R111, R112) -/

/-- The encoded block that a call gets from the encoders when the buffer is unbounded (R72, R80). -/
def callBlock : ZsCall → EncodedBlock
  | .push data => .plain (packBytes (fixedBlockStream data))
  | .pushZeroes n => if n ≤ 1032 then .plain (zeroBlockBytes n) else largeBlock n

theorem zeroRunEncode_unbounded (n : Nat) (w : BitWriter) :
    zeroRunEncode none n w = .ok (callBlock (.pushZeroes n), BitWriter.empty) := by
  rw [callBlock]
  split
  · exact zeroRunEncode_small w ‹_› rfl
  · exact zeroRunEncode_large w (Nat.lt_of_not_le ‹_›) rfl

/-- A checksum answer carries no block (R49). -/
theorem blockOf_respScalar (v : Word64) : blockOf (respScalar v) = none := rfl

/-- The host gets the block of a call back from the answer. -/
theorem blockOf_respBlock_callBlock {x : ZsCall} (h : callInRange x = true) : blockOf (respBlock (callBlock x)) = some (callBlock x) := by
  cases x with
  | push data => rfl
  | pushZeroes n =>
    rw [callBlock]
    split
    · rfl
    · exact blockOf_respBlock_largeBlock (of_decide_eq_true h)

theorem callBlock_bytes_pos (x : ZsCall) : 1 ≤ (flatten (callBlock x)).length := by
  cases x with
  | push data =>
    rw [callBlock, flatten, packBytes_length]
    exact fixedBlockStream_bytes_pos data
  | pushZeroes n =>
    rw [callBlock]
    split
    · rw [flatten, zeroBlockBytes_length]
      omega
    · exact largeBlock_bytes_pos n

/-! ### Running the commands of a stream (R110 to R112, R114) -/

/-- What a call is answered with from the checksum `c`: the new checksum, then its block (R111, R112). -/
def callAnswers (c : Word32) (x : ZsCall) : List Response :=
  [respScalar (zextAdler (adlerCombine c (callData x))), respBlock (callBlock x)]

/-- The host gets one block from the answers to a call. -/
theorem callAnswers_blocks (c : Word32) {x : ZsCall} (h : callInRange x = true) :
    (callAnswers c x).filterMap blockOf = [callBlock x] := by
  rw [callAnswers, List.filterMap_cons_none (blockOf_respScalar _), List.filterMap_cons_some (blockOf_respBlock_callBlock h),
    List.filterMap_nil]

/-- The block after the checksum's command of a call (R111, R112). -/
def afterChecksum (x : ZsCall) (s : State) : State :=
  answer (setAdler s (adlerCombine s.adler (callData x))) (respScalar (zextAdler (adlerCombine s.adler (callData x))))

/-- The block after both commands of a call (R111, R112). -/
def afterCall (x : ZsCall) (s : State) : State :=
  answer (setBw (afterChecksum x s) BitWriter.empty) (respBlock (callBlock x))

@[simp] theorem afterCall_adler (x : ZsCall) (s : State) : (afterCall x s).adler = adlerCombine s.adler (callData x) := rfl

@[simp] theorem afterCall_input (x : ZsCall) (s : State) : (afterCall x s).input = s.input.tail.tail := rfl

@[simp] theorem afterCall_responses (x : ZsCall) (s : State) : (afterCall x s).responses = s.responses ++ callAnswers s.adler x :=
  List.append_assoc _ _ _

/-- On an unfaulted block with a canonical checksum and an unbounded buffer the two commands of a call take its data into the checksum
and answer its block. -/
theorem run_callCommands (k : Nat) {x : ZsCall} {s : State} {later : List HostAction} (hx : callInRange x = true)
    (hf : s.faultValid = false) (hadler : adlerCanonical s.adler = true) (hcap : s.params.bwCap = none)
    (hin : s.input = hostActions (callCommands x) ++ later) :
    Host.Core.run core (k + 2) s = Host.Core.run core k (afterCall x s) := by
  have hcap' : (afterChecksum x s).params.bwCap = none := hcap
  have hnext : (afterChecksum x s).input = s.input.tail := rfl
  rw [hin] at hnext
  cases x with
  | push data =>
    have hpayload : payload s = data := by rw [payload, hin]; rfl
    have hpayload' : payload (afterChecksum (.push data) s) = data := by rw [payload, hnext]; rfl
    have hsum : bodyOf (.adCombine data.length) s
        = .ok (setAdler s (adlerCombine s.adler data), respScalar (zextAdler (adlerCombine s.adler data))) := by
      rw [bodyOf, hpayload]
    have hblock : bodyOf (.feEncode data.length) (afterChecksum (.push data) s)
        = .ok (setBw (afterChecksum (.push data) s) BitWriter.empty, respBlock (callBlock (.push data))) := by
      rw [bodyOf, hpayload', hcap', fixedEncode_unbounded]
      rfl
    exact (run_command (k + 1) hin hx hf rfl hsum).trans (run_command k hnext hx hf rfl hblock)
  | pushZeroes n =>
    have hsum : bodyOf (.adZeroRun n) s
        = .ok (setAdler s (adlerCombine s.adler (zeros n)), respScalar (zextAdler (adlerCombine s.adler (zeros n)))) := by
      rw [bodyOf, adlerZeroRun_eq_combine_zeros hadler]
    have hblock : bodyOf (.zrEncode n) (afterChecksum (.pushZeroes n) s)
        = .ok (setBw (afterChecksum (.pushZeroes n) s) BitWriter.empty, respBlock (callBlock (.pushZeroes n))) := by
      rw [bodyOf, hcap', zeroRunEncode_unbounded]
      rfl
    exact (run_command (k + 1) hin hx hf rfl hsum).trans (run_command k hnext hx hf rfl hblock)

theorem streamCommands_cons (x : ZsCall) (xs : List ZsCall) : streamCommands (x :: xs) = callCommands x ++ streamCommands xs := by
  rw [streamCommands, List.flatMap_cons, List.append_assoc, streamCommands]

theorem callCommands_length (x : ZsCall) : (callCommands x).length = 2 := by cases x <;> rfl

/-- The commands of a stream end without a fault; the answers carry the blocks of the calls in order, and the last one the checksum over
all the data. -/
theorem run_streamCommands (calls : List ZsCall) {s : State} {later : List HostAction} (hcalls : ∀ x ∈ calls, callInRange x = true)
    (hf : s.faultValid = false) (hadler : adlerCanonical s.adler = true) (hcap : s.params.bwCap = none)
    (hin : s.input = hostActions (streamCommands calls) ++ later) :
    ∃ (t : State) (before : List Response), Host.Core.run core (streamCommands calls).length s = .next t
      ∧ t.faultValid = false ∧ t.input = later
      ∧ t.responses = s.responses ++ (before ++ [respScalar (zextAdler (adlerCombine s.adler (calls.flatMap callData)))])
      ∧ before.filterMap blockOf = calls.map callBlock := by
  induction calls generalizing s with
  | nil =>
    refine ⟨answer s (respScalar (zextAdler s.adler)), [], run_command 0 hin rfl hf rfl rfl, hf, ?_, ?_, rfl⟩
    · rw [answer_input, hin]
      rfl
    · rw [List.flatMap_nil, adlerCombine_nil, answer_responses, List.nil_append]
  | cons x xs ih =>
    obtain ⟨hx, hxs⟩ := List.forall_mem_cons.mp hcalls
    rw [streamCommands_cons, hostActions, List.map_append, List.append_assoc] at hin
    have hnext : (afterCall x s).input = hostActions (streamCommands xs) ++ later := by
      rw [afterCall_input, hin]
      cases x <;> rfl
    obtain ⟨t, before, hrun, hvalid, hinput, hanswers, hblocks⟩ :=
      ih (s := afterCall x s) hxs hf (adlerCombine_canonical hadler (callData x)) hcap hnext
    refine ⟨t, callAnswers s.adler x ++ before, ?_, hvalid, hinput, ?_, ?_⟩
    · rw [streamCommands_cons, List.length_append, callCommands_length, Nat.add_comm]
      exact (run_callCommands _ hx hf hadler hcap hin).trans hrun
    · rw [hanswers, afterCall_responses, afterCall_adler, adlerCombine_append, List.flatMap_cons, List.append_assoc, List.append_assoc]
    · rw [List.filterMap_append, callAnswers_blocks s.adler hx, hblocks]
      rfl

/-! ### What the decoder reads from a stream (R53, R114 to R117) -/

/-- The block of a call is read as the call's data: at most two units of fuel. -/
theorem inflateBlocks_callBlock (x : ZsCall) {fuel : Nat} {rest tail : List Bool} {out : List Byte} (hr : rest.length % 8 = 0)
    (h : inflateBlocks true fuel rest = some (out, tail)) :
    inflateBlocks true (fuel + 2) (bitsOf (flatten (callBlock x)) ++ rest) = some (callData x ++ out, tail) := by
  obtain ⟨used, hle, hread⟩ : ∃ used ≤ 2, inflateBlocks true (fuel + used) (bitsOf (flatten (callBlock x)) ++ rest)
      = (inflateBlocks true fuel rest).map (fun p => (callData x ++ p.1, p.2)) := by
    cases x with
    | push data =>
      obtain ⟨used, hle, -, hread⟩ := inflateBlocks_fixedStream true data rest hr fuel
      rw [← bitsOf_packBytes_of_aligned (fixedStream_aligned data), ← fixedBlockStream_eq] at hread
      exact ⟨used, hle, hread⟩
    | pushZeroes n =>
      rw [callBlock]
      split
      · obtain ⟨used, hle, -, hread⟩ := inflateBlocks_fixedStream true (zeros n) rest hr fuel
        rw [← fixedBlockStream_eq, fixedBlockStream_zeros] at hread
        exact ⟨used, hle, hread⟩
      · exact inflateBlocks_largeRun true (Nat.lt_of_not_le ‹_›) hr fuel
  rw [h] at hread
  exact inflateBlocks_of_le (Nat.add_le_add_left hle fuel) hread

/-- The bits of the blocks of a list of calls. -/
def callsBits (calls : List ZsCall) : List Bool := bitsOf ((calls.map callBlock).flatMap flatten)

theorem inflateBlocks_callsBits (calls : List ZsCall) {fuel : Nat} {rest tail : List Bool} {out : List Byte} (hr : rest.length % 8 = 0)
    (h : inflateBlocks true fuel rest = some (out, tail)) :
    inflateBlocks true (fuel + 2 * calls.length) (callsBits calls ++ rest) = some (calls.flatMap callData ++ out, tail) := by
  induction calls with
  | nil => exact h
  | cons x xs ih =>
    have haligned : (callsBits xs ++ rest).length % 8 = 0 := by
      rw [List.length_append, callsBits, bitsOf_length]
      omega
    have hread := inflateBlocks_callBlock x haligned ih
    rw [← List.append_assoc, ← List.append_assoc, ← List.flatMap_cons] at hread
    rw [callsBits, List.map_cons, List.flatMap_cons, bitsOf_append]
    exact hread

/-- The terminating block is a final stored block of no bytes (R55, R115). -/
theorem inflateBlock_finalBlock {rest : List Bool} (hr : rest.length % 8 = 0) :
    inflateBlock (bitsOf finalBlock ++ rest) = some (true, [], rest) := by
  have hfields : bitsOf finalBlock = fieldBits 1 1 ++ (fieldBits 0 2 ++ (fieldBits 0 5 ++ (fieldBits 0 16 ++ fieldBits 0xFFFF 16))) :=
    pushedBits_finalFields.symm
  have hskip : (fieldBits 0 5 ++ (fieldBits 0 16 ++ (fieldBits 0xFFFF 16 ++ rest))).length % 8 = (fieldBits 0 5).length := by
    simp only [List.length_append, fieldBits_length]
    omega
  have hstored : inflateStored (fieldBits 0 5 ++ (fieldBits 0 16 ++ (fieldBits 0xFFFF 16 ++ rest))) = some ([], rest) := by
    rw [inflateStored, hskip, List.drop_left]
    simp [takeBits_fieldBits, packBytes]
  rw [hfields, inflateBlock]
  simp [takeBits_fieldBits, hstored]

theorem inflateBlocks_finalBlock {rest : List Bool} (hr : rest.length % 8 = 0) :
    inflateBlocks true 1 (bitsOf finalBlock ++ rest) = some ([], rest) := by
  simp [inflateBlocks, inflateBlock_finalBlock hr]

/-- Each block takes at least one byte, so that the decoder's fuel covers the two units it may use. -/
theorem length_le_callBlocks_bytes (calls : List ZsCall) : calls.length ≤ ((calls.map callBlock).flatMap flatten).length := by
  induction calls with
  | nil => exact Nat.le_refl 0
  | cons x xs ih =>
    have := callBlock_bytes_pos x
    simp only [List.map_cons, List.flatMap_cons, List.length_append, List.length_cons]
    omega

/-- A stream of the blocks of calls with the checksum of their data is read as that data. -/
theorem decodeZlib_produce (calls : List ZsCall) :
    decodeZlib (produce (calls.map callBlock) (adlerCombine 1 (calls.flatMap callData))) = some (calls.flatMap callData) := by
  generalize hc : adlerCombine 1 (calls.flatMap callData) = c
  have hbytes : produce (calls.map callBlock) c
      = 0x78 :: 0xDA :: ((calls.map callBlock).flatMap flatten ++ finalBlock ++ bigEndian c) := rfl
  have hfuel : 1 + 2 * calls.length ≤ 8 * ((calls.map callBlock).flatMap flatten ++ finalBlock ++ bigEndian c).length + 1 := by
    have := length_le_callBlocks_bytes calls
    simp only [List.length_append]
    omega
  have htrailer : (bitsOf (bigEndian c)).length % 8 = 0 := by rw [bitsOf_length]; omega
  have hrest : (bitsOf finalBlock ++ bitsOf (bigEndian c)).length % 8 = 0 := by
    rw [← bitsOf_append, bitsOf_length]
    omega
  have hread := inflateBlocks_of_le hfuel (inflateBlocks_callsBits calls hrest (inflateBlocks_finalBlock htrailer))
  rw [List.append_nil, callsBits, ← bitsOf_append, ← bitsOf_append, ← List.append_assoc] at hread
  rw [hbytes, decodeZlib, hread]
  subst hc
  simp

/-- Settles O58: the answers carry the blocks of the calls and the checksum of the data, and the decoder reads the stream of these. -/
theorem zlibStreamRoundTrip : Obligations.ZlibStreamRoundTrip := by
  intro calls s later hcalls hf hadler hcap hin
  have hcanonical : adlerCanonical s.adler = true := by rw [hadler]; decide
  obtain ⟨t, before, hrun, hvalid, hinput, hanswers, hblocks⟩ := run_streamCommands calls hcalls hf hcanonical hcap hin
  have hassembled : assembled (before ++ [respScalar (zextAdler (adlerCombine s.adler (calls.flatMap callData)))])
      = produce (calls.map callBlock) (adlerCombine 1 (calls.flatMap callData)) := by
    rw [assembled, takeScalar_append_zextAdler, List.filterMap_append, hblocks, List.filterMap_cons_none (blockOf_respScalar _),
      List.filterMap_nil, List.append_nil, hadler, Option.getD_some]
  refine ⟨t, _, hrun, by rw [goodRun, hvalid]; rfl, hinput, hanswers, ?_, ?_⟩
  · rw [hassembled, decodeZlib_produce]
  · exact produce_length _ _

end Sys2Proof.Machine
end

section
/-! PROOFS of the statements of 60_exceptions.md: the order of the checks of a command, and what a faulted block does and shows. -/

namespace Sys2Proof.Machine

/-! ### A step by what the host offers (R14, R122, R140) -/

section Offered

variable {s : State} {c : Command} {rest : List HostAction}

theorem step_of_nothing (hin : s.input = []) : step s = .next s := by
  simp only [step, hin, idle]

theorem step_of_reset (hin : s.input = .reset :: rest) : step s = .next (applyReset rest s) := by
  simp only [step, hin]

theorem step_of_decode_ok {i : Instr} (hin : s.input = .command c :: rest) (hdec : decode c.word = .ok i) : step s = exec i s := by
  simp only [step, hin, hdec]

theorem step_of_decode_error {e : DecodeReject} (hin : s.input = .command c :: rest) (hdec : decode c.word = .error e) :
    step s = .next (rejectWord s) := by
  simp only [step, hin, hdec]

theorem payload_of_command (hin : s.input = .command c :: rest) : payload s = c.data := by
  simp only [payload, hin]

/-- A faulted block answers any command offered with its code (R122 step 1, R124). -/
theorem step_of_faulted_command (hf : s.faultValid = true) (hin : s.input = .command c :: rest) : step s = .next (answerFaulted s) := by
  obtain ⟨t, hstep, ⟨-, rfl⟩ | ⟨hnot, -⟩ | ⟨-, -, -, ⟨hnot, -⟩, -⟩⟩ := step_command_cases hin
  · exact hstep
  · exact absurd (hf.symm.trans hnot) (by decide)
  · exact absurd (hf.symm.trans hnot) (by decide)

end Offered

/-! ### The order of the checks (R122) -/

theorem rejectWord_unfaulted {s : State} (hf : s.faultValid = false) : rejectWord s = faulted s 1 := by
  rw [rejectWord, hf]
  rfl

theorem legalWord_of_decode_ok {w : CmdWord} {i : Instr} (hdec : decode w = .ok i) : legalWord w = true :=
  (decoderAcceptsLegalWords w).mp ⟨i, hdec⟩

theorem legalWord_of_decode_error {w : CmdWord} {e : DecodeReject} (hdec : decode w = .error e) : legalWord w = false := by
  rw [← Bool.not_eq_true, ← decoderAcceptsLegalWords w, hdec]
  exact fun ⟨_, h⟩ => nomatch h

/-- Settles O6, check by check: the fault register, the word, the payload, the command's own rule. -/
theorem checkOrder : Obligations.CheckOrder := by
  intro s c rest hin
  rcases hf : s.faultValid
  · rcases hdec : decode c.word with e | i
    · have hillegal : legalWord c.word = false := legalWord_of_decode_error hdec
      simp [hillegal, step_of_decode_error hin hdec, rejectWord_unfaulted hf]
    · have hlegal : legalWord c.word = true := legalWord_of_decode_ok hdec
      simp only [Bool.false_eq_true, if_false, hlegal, Bool.true_eq_false, step_of_decode_ok hin hdec]
      by_cases hlen : c.data.length ≠ announcedLength i
      · rw [if_pos hlen]
        exact wrongPayloadFaults i s hf (by rwa [payload_of_command hin])
      · rw [if_neg hlen]
  · exact step_of_faulted_command hf hin

/-! ### A faulted block (R124, R125) -/

/-- Settles O9: the answer of a faulted block consumes the command and appends the code. -/
theorem faultedBlockAnswersCode : Obligations.FaultedBlockAnswersCode := by
  intro s c rest hf hin
  have htail : s.input.tail = rest := by rw [hin]; rfl
  rw [step_of_faulted_command hf hin, answerFaulted_eq_answered, answered, htail]
  rfl

/-- Everything a step of a faulted block can do: wait, reset, or answer a command with the code (R124, R125). -/
theorem step_faulted_cases {s t : State} (hf : s.faultValid = true) (h : step s = .next t) :
    (s.input = [] ∧ t = s)
    ∨ (∃ later, s.input = .reset :: later ∧ t = applyReset later s)
    ∨ ∃ c rest, s.input = .command c :: rest ∧ t = answerFaulted s := by
  rcases hin : s.input with _ | ⟨c | _, rest⟩
  · exact .inl ⟨rfl, Host.Outcome.next.inj (h.symm.trans (step_of_nothing hin))⟩
  · exact .inr (.inr ⟨c, rest, rfl, Host.Outcome.next.inj (h.symm.trans (step_of_faulted_command hf hin))⟩)
  · exact .inr (.inl ⟨rest, rfl, Host.Outcome.next.inj (h.symm.trans (step_of_reset hin))⟩)

/-- Settles O10, case by case over what a step of a faulted block can do. -/
theorem onlyResetLeavesFault : Obligations.OnlyResetLeavesFault := by
  intro s t hf h
  rcases step_faulted_cases hf h with ⟨-, rfl⟩ | ⟨later, hin, rfl⟩ | ⟨-, -, -, rfl⟩
  · exact .inl ⟨hf, rfl, rfl, rfl⟩
  · exact .inr ⟨later, hin, rfl, rfl, rfl, rfl⟩
  · exact .inl ⟨hf, rfl, rfl, rfl⟩

/-! ### What a faulted block shows (R123, R124) -/

/-- A step of a faulted block does the same whatever the writer and the checksum hold: the states that differ only there step to states
that differ at most there. -/
theorem step_faulted_contents {s s' : State} (hf : s.faultValid = true) (h : step s = .next s') (w : BitWriter) (a : Word32) :
    ∃ w' a', step { s with bw := w, adler := a } = .next { s' with bw := w', adler := a' } := by
  rcases step_faulted_cases hf h with ⟨hin, rfl⟩ | ⟨later, hin, rfl⟩ | ⟨c, rest, hin, rfl⟩
  · exact ⟨w, a, step_of_nothing hin⟩
  · exact ⟨BitWriter.empty, 1, step_of_reset hin⟩
  · exact ⟨w, a, step_of_faulted_command hf hin⟩

/-- Settles O11: the second state's step is the first's, up to the writer and the checksum. -/
theorem faultedContentsUnobservable : Obligations.FaultedContentsUnobservable := by
  intro s s' t' w a hf h h'
  obtain ⟨w', a', hstep⟩ := step_faulted_contents hf h w a
  obtain rfl : t' = { s' with bw := w', adler := a' } := Host.Outcome.next.inj (h'.symm.trans hstep)
  exact ⟨rfl, rfl, rfl, rfl⟩

end Sys2Proof.Machine
end

section
/-! PROOFS of the statements of 70_reset_and_hazards.md: what a reset writes, that the block never halts, and the two commands that leave
the registers as a reset does. -/

namespace Sys2Proof.Machine

/-! ### Every step has a next state (R140, R150) -/

/-- Settles O13: a reset is what the host offers, so the step applies it. -/
theorem resetStep : Obligations.ResetStep := fun _ _ hin => step_of_reset hin

/-- Settles O15, case by case over what the host offers: nothing, a command, a reset. -/
theorem everyStepAnswers : Obligations.EveryStepAnswers := by
  intro s
  rcases hin : s.input with _ | ⟨c | _, rest⟩
  · exact ⟨s, step_of_nothing hin⟩
  · obtain ⟨t, hstep, -⟩ := step_command_cases hin
    exact ⟨t, hstep⟩
  · exact ⟨applyReset rest s, step_of_reset hin⟩

/-! ### Clearing and loading (R141) -/

/-- The block after BW_CLEAR has answered (R64). -/
def cleared (s : State) : State := answer (setBw s BitWriter.empty) respNone

/-- The block after BW_CLEAR and AD_LOAD of `c` have answered (R64, R102). -/
def clearedAndLoaded (c : Word32) (s : State) : State := answer (setAdler (cleared s) c) (respScalar (zextAdler c))

/-- An unfaulted block runs BW_CLEAR and then AD_LOAD of `c` without a fault. -/
theorem run_clear_load {s : State} {c : Word32} {later : List HostAction} (hf : s.faultValid = false)
    (hin : s.input = hostActions [commandOf .bwClear [], commandOf (.adLoad c) []] ++ later) :
    Host.Core.run core 2 s = .next (clearedAndLoaded c s) := by
  have hclear : Host.Core.run core 2 s = Host.Core.run core 1 (cleared s) := run_command 1 hin rfl hf rfl rfl
  have hnext : (cleared s).input = .command (commandOf (.adLoad c) []) :: later := congrArg List.tail hin
  exact hclear.trans (run_command 0 hnext rfl hf rfl rfl)

/-- Settles O20: BW_CLEAR writes the writer, AD_LOAD 1 the checksum, and neither the fault register, which is clear already. -/
theorem clearAndLoadIsReset : Obligations.ClearAndLoadIsReset := by
  intro s later hf hcode hin
  have hinput : (clearedAndLoaded 1 s).input = later := congrArg (List.tail ∘ List.tail) hin
  exact ⟨_, run_clear_load hf hin, rfl, rfl, hf, hcode, rfl, hinput⟩

end Sys2Proof.Machine
end

section
/-! PROOFS of the statements about the command word as a whole, and of the first facts about a step and about reset: the decoder and the
encoder are inverse to each other (30_encoding.md section 2), what a step does with the word it reads or refuses, and the invariant at
reset. -/

namespace Sys2Proof.Machine

/-! ### What the decoder read, told from its answer (R45 to R48) -/

/-- An answered command with the whole `arg` as its operand (R46). -/
theorem decodeArgOnly_ok_iff {w : CmdWord} {i j : Instr} : decodeArgOnly w i = .ok j ↔ wordNbits w = 0 ∧ i = j := by
  simp [decodeArgOnly, ite_eq_iff]

/-- An answered command without operand (R46). -/
theorem decodeNoOperand_ok_iff {w : CmdWord} {i j : Instr} :
    decodeNoOperand w i = .ok j ↔ wordNbits w = 0 ∧ wordArg w = 0 ∧ i = j := by
  simp [decodeNoOperand, ite_eq_iff]

/-- An answered AD_LOAD (R46, R102). -/
theorem decodeAdLoad_ok_iff {w : CmdWord} {j : Instr} :
    decodeAdLoad w = .ok j
      ↔ wordNbits w = 0 ∧ (wordArg w).extractLsb' 32 32 = 0 ∧ .adLoad ((wordArg w).extractLsb' 0 32) = j := by
  simp [decodeAdLoad, ite_eq_iff]

/-- An answered word has `rsv` 0, and the opcode map gives the command (R45, R47). -/
theorem decode_ok_iff {w : CmdWord} {i : Instr} : decode w = .ok i ↔ wordRsv w = 0 ∧ decodeOp w = .ok i := by
  simp [decode, ite_eq_iff]

/-! ### The word, told from its fields (R45, R46) -/

/-- A word whose `rsv` is 0 is built from its opcode's number and its other fields. -/
theorem buildWord_of_opNumber {w : CmdWord} {k : Nat} (hrsv : wordRsv w = 0) (hop : (wordOp w).toNat = k) :
    buildWord (BitVec.ofNat 4 k) (wordNbits w) (wordArg w) = w := by
  rw [← hop, BitVec.ofNat_toNat, BitVec.setWidth_eq, buildWord_fields w hrsv]

/-- An `arg` whose upper half is 0 is the zero extension of its lower half (R46, R102). -/
theorem setWidth_extractLow {a : Word64} (h : a.extractLsb' 32 32 = 0) : (a.extractLsb' 0 32).setWidth 64 = a := by
  apply BitVec.eq_of_toNat_eq
  have hhigh : (a.extractLsb' 32 32).toNat = 0 := congrArg BitVec.toNat h
  have := a.isLt
  simp only [BitVec.toNat_setWidth, BitVec.extractLsb'_toNat, Nat.shiftRight_eq_div_pow] at hhigh ⊢
  omega

/-- Opcode by opcode, the command read from a word is well formed and has that word as its encoding. -/
theorem encode_of_decodeOp {w : CmdWord} {i : Instr} (hrsv : wordRsv w = 0) (h : decodeOp w = .ok i) :
    i.WellFormed ∧ encode i = w := by
  rw [decodeOp] at h
  split at h
  case h_1 hop | h_2 hop =>
    obtain rfl := Except.ok.inj h
    exact ⟨decide_eq_true (wordNbits w).isLt, by simpa [encode] using buildWord_of_opNumber hrsv hop⟩
  case h_3 hop | h_4 hop | h_5 hop | h_11 hop =>
    obtain ⟨hnbits, harg, rfl⟩ := decodeNoOperand_ok_iff.mp h
    exact ⟨rfl, by simpa [encode, hnbits, harg] using buildWord_of_opNumber hrsv hop⟩
  case h_6 hop | h_7 hop | h_9 hop | h_10 hop =>
    obtain ⟨hnbits, rfl⟩ := decodeArgOnly_ok_iff.mp h
    exact ⟨decide_eq_true (wordArg w).isLt, by simpa [encode, hnbits] using buildWord_of_opNumber hrsv hop⟩
  case h_8 hop =>
    obtain ⟨hnbits, hhigh, rfl⟩ := decodeAdLoad_ok_iff.mp h
    exact ⟨rfl, by simpa [encode, hnbits, setWidth_extractLow hhigh] using buildWord_of_opNumber hrsv hop⟩
  case h_12 => nomatch h

/-- Settles O1: each field of a built word is what it was built from, and each operand fits its field. -/
theorem decodeOfEncode : Obligations.DecodeOfEncode := fun _ => decode_encode

/-- Settles O2: a word is its fields, and the decoder answers only where those it does not return are 0. -/
theorem encodeOfDecode : Obligations.EncodeOfDecode := by
  intro w i h
  obtain ⟨hrsv, hop⟩ := decode_ok_iff.mp h
  exact encode_of_decodeOp hrsv hop

/-- Settles O4: the decoder evaluates on each of the words of the vectors. -/
theorem vectorWordsDecode : Obligations.VectorWordsDecode := by
  unfold Obligations.VectorWordsDecode
  and_intros <;> rfl

/-! ### A step on a word that is read or refused (R48, R122) -/

/-- Settles O5: of the three things a host may offer, this is a command whose word is read. -/
theorem stepRunsDecodedCommand : Obligations.StepRunsDecodedCommand := fun _ _ _ _ => step_of_decode_ok

/-- Settles O7: the decoder refuses a word that is not legal, and an unfaulted block reports any refusal as code 1. -/
theorem illegalWordFaults : Obligations.IllegalWordFaults := by
  intro s c rest hin hf hillegal
  rcases hdec : decode c.word with e | i
  · rw [step_of_decode_error hin hdec, rejectWord_unfaulted hf]
  · exact absurd ((legalWord_of_decode_ok hdec).symm.trans hillegal) (by decide)

/-! ### Reset (R22) -/

/-- Settles O18: a reset with nothing more to come leaves R22's values, at any capacity. -/
theorem resetHasInv : Obligations.ResetHasInv :=
  have hany : ∀ p : Params, (State.resetWith p).Inv := fun p => inv_applyReset [] (State.resetWith p)
  ⟨hany Params.standard, hany⟩

end Sys2Proof.Machine
end
